-- ==== Sys2Proof/Word.lean ====
section
/-! DEFINITION. The engine's words and names: Instants, bytes, the frame, the line level, the phases, the result codes and
the sample event (10_state.md R20 to R31, 30_encoding.md R62 to R66). -/

namespace Sys2Proof

/-- An Instant: `TIME_W` = 32 bits of whole microseconds (R9, R46). -/
abbrev Instant := BitVec 32

/-- A difference of Instants, unsigned microseconds at full width (R69, R90). -/
abbrev Duration := BitVec 32

/-- One byte of the frame (R70). -/
abbrev Byte := BitVec 8

/-- The 40-bit frame; bit 39 arrived first (R66). -/
abbrev Frame := BitVec 40

/-- The level of the line (R64). -/
inductive Level where
  | low
  | high
  deriving DecidableEq, Repr, Inhabited

/-- The eight phases, in the order of their codes (R21, R62). -/
inductive Phase where
  | idle
  | startSignal
  | awaitRespLow
  | awaitRespHigh
  | awaitDataStart
  | bitSync
  | bitMeasure
  | checksum
  deriving DecidableEq, Repr, Inhabited

/-- The outcome of the last completed read, or none (R26, R63). -/
inductive Status where
  | none
  | ok
  | timeout
  | checksumMismatch
  deriving DecidableEq, Repr, Inhabited

/-- The two failures of a read (R125): a timeout names its phase. -/
inductive Failure where
  | timeout (p : Phase)
  | checksumMismatch
  deriving DecidableEq, Repr

/-- A sample event: the four inputs of one step, taken at one moment (R30, R31, R48). The one-bit ports `rst` and `start` are
Booleans, `true` for 1. -/
structure SampleEvent where
  rst : Bool
  start : Bool
  lineIn : Level
  now : Instant
  deriving DecidableEq, Repr, Inhabited

end Sys2Proof
end

