-- ==== Sys2Proof/Config.lean ====
section
/-! DEFINITION. What a build of the engine fixes (00_scope.md R8, R9), and the one free value: the sample event of a step that
no listed event covers. -/

namespace Sys2Proof.Config

/-- The build-time parameters of R8, and the two widths of R9 that its constraints speak of. Times are in microseconds. -/
structure Params where
  tStartLow : Nat
  bRespLow : Nat
  bRespHigh : Nat
  bDataStart : Nat
  bBitSync : Nat
  bBitCap : Nat
  tThresh : Nat
  nBits : Nat
  nBytes : Nat
  timeW : Nat
  bitcntW : Nat
  deriving DecidableEq, Repr

/-- This hardware's parameters: the document's literals (R8; UNVERIFIED, log entry 5: the spec calls them unaudited) and the
widths the spec chose (R9). -/
def build : Params where
  tStartLow := 20000
  bRespLow := 60
  bRespHigh := 100
  bDataStart := 100
  bBitSync := 80
  bBitCap := 100
  tThresh := 48
  nBits := 40
  nBytes := 5
  timeW := 32
  bitcntW := 6

/-- The free value (R30: all that is open is "which sample events arrive"): the inputs of step number `n` where the state
lists none. It has no body; nothing can be proved of its value (log entry 2, safe). -/
opaque freeEvent : Nat → SampleEvent

end Sys2Proof.Config
end

