-- ==== Sys2Proof/Syntax.lean ====
section
/-! DEFINITION. The operations of the engine, one constructor for each row of spec/opcode_table.json. No operation has an
encoded operand (30_encoding.md R60). -/

namespace Sys2Proof

/-- The one command and the eight phase operations (R60 to R62). -/
inductive Instr where
  | read
  | idle
  | startSignal
  | awaitRespLow
  | awaitRespHigh
  | awaitDataStart
  | bitSync
  | bitMeasure
  | checksum
  deriving DecidableEq, Repr

end Sys2Proof
end

