-- ==== Sys2Proof/Decode.lean ====
section
/-! DEFINITION. The encodings of 30_encoding.md: phase, status and level codes, the operation word of a step, the decoder
(total) and the encoder, and the two word formats of spec/opcode_table.json. -/

namespace Sys2Proof

/-! ### Codes -/

/-- The phase codes (R21, R62). -/
def Phase.code : Phase → BitVec 3
  | .idle => 0b000
  | .startSignal => 0b001
  | .awaitRespLow => 0b010
  | .awaitRespHigh => 0b011
  | .awaitDataStart => 0b100
  | .bitSync => 0b101
  | .bitMeasure => 0b110
  | .checksum => 0b111

/-- The phase a three-bit code names; all eight codes are used (R62, R72). -/
def Phase.ofCode (c : BitVec 3) : Phase :=
  match c.toNat with
  | 0 => .idle
  | 1 => .startSignal
  | 2 => .awaitRespLow
  | 3 => .awaitRespHigh
  | 4 => .awaitDataStart
  | 5 => .bitSync
  | 6 => .bitMeasure
  | _ => .checksum

/-- The status codes (R26, R63). -/
def Status.code : Status → BitVec 2
  | .none => 0b00
  | .ok => 0b01
  | .timeout => 0b10
  | .checksumMismatch => 0b11

/-- The level codes (R64). -/
def Level.code : Level → BitVec 1
  | .low => 0
  | .high => 1

/-- The level a one-bit code names (R64). -/
def Level.ofCode (b : BitVec 1) : Level := if b = 0 then .low else .high

/-! ### The operation word of a step -/

/-- What selects the operation of a step: the `PHASE` register (R62) and the `start` input (R61), which is an operand of the
choice in `IDLE` alone (R80 to R82). -/
structure OpWord where
  phase : BitVec 3
  start : Bool
  deriving DecidableEq, Repr

/-- The decoder (R30, R61, R62): total, since no code is reserved (R72). In `IDLE` the command bit chooses between `READ` (R81)
and `IDLE` (R80); in every other phase it is ignored (R82). -/
def decode (w : OpWord) : Instr :=
  match Phase.ofCode w.phase with
  | .idle => if w.start then .read else .idle
  | .startSignal => .startSignal
  | .awaitRespLow => .awaitRespLow
  | .awaitRespHigh => .awaitRespHigh
  | .awaitDataStart => .awaitDataStart
  | .bitSync => .bitSync
  | .bitMeasure => .bitMeasure
  | .checksum => .checksum

/-- The encoder, from the tables of R61 and R62; where `start` is ignored it is 0. -/
def encode : Instr → OpWord
  | .read => ⟨0b000, true⟩
  | .idle => ⟨0b000, false⟩
  | .startSignal => ⟨0b001, false⟩
  | .awaitRespLow => ⟨0b010, false⟩
  | .awaitRespHigh => ⟨0b011, false⟩
  | .awaitDataStart => ⟨0b100, false⟩
  | .bitSync => ⟨0b101, false⟩
  | .bitMeasure => ⟨0b110, false⟩
  | .checksum => ⟨0b111, false⟩

/-! ### The words of the opcode table -/

/-- The two formats of the table: `CMD`, the one bit `start` (R61), and `PHASE`, the three bits of the register (R62). -/
inductive Format where
  | cmd
  | phase
  deriving DecidableEq, Repr

/-- Why a number is no word of a format. -/
inductive DecodeError where
  /-- A `CMD` word with `start` = 0: "no request" (R61). -/
  | noRequest
  /-- A number that does not fit the one bit of format `CMD` (R61). -/
  | widerThanCommand
  /-- A number that does not fit the three bits of format `PHASE` (R62). -/
  | widerThanPhase
  deriving DecidableEq, Repr

/-- The operation word that a word of a format stands for. A `CMD` word is taken in `IDLE` (R61); a `PHASE` word stands with
`start` = 0. -/
def tableOpWord (f : Format) (w : Nat) : Except DecodeError OpWord :=
  match f with
  | .cmd =>
    match w with
    | 0 => .error .noRequest
    | 1 => .ok ⟨0b000, true⟩
    | _ => .error .widerThanCommand
  | .phase => if w < 8 then .ok ⟨BitVec.ofNat 3 w, false⟩ else .error .widerThanPhase

/-- The decoder on a word of a format: it gives an operation or rejects by name. -/
def decodeWord (f : Format) (w : Nat) : Except DecodeError Instr :=
  match tableOpWord f w with
  | .ok o => .ok (decode o)
  | .error e => .error e

/-- The format of a table row by its width. The two formats share the number 1 (`READ` and `START_SIGNAL`), so the width
tells them apart: one bit is `CMD`, anything wider is `PHASE` (log entry 4, DEDUCED). -/
def formatOfWidth (nbits : Nat) : Format := if nbits = 1 then .cmd else .phase

/-- The table word of an operation: its format and its number in spec/opcode_table.json ("match"). -/
def encodeTableWord : Instr → Format × Nat
  | .read => (.cmd, 1)
  | .idle => (.phase, 0)
  | .startSignal => (.phase, 1)
  | .awaitRespLow => (.phase, 2)
  | .awaitRespHigh => (.phase, 3)
  | .awaitDataStart => (.phase, 4)
  | .bitSync => (.phase, 5)
  | .bitMeasure => (.phase, 6)
  | .checksum => (.phase, 7)

/-- The operation the decoder reads from a table word of `nbits` bits. -/
def decodeTableWord (nbits w : Nat) : Option Instr :=
  match decodeWord (formatOfWidth nbits) w with
  | .ok i => some i
  | .error _ => none

end Sys2Proof
end

