-- ==== Sys2Proof/Machine/State.lean ====
section
/-! DEFINITION. The state of the engine: the six registers of 10_state.md R20, and the environment's inputs, which the host's
form of a step (a function of the state alone) makes stand in the state. -/

namespace Sys2Proof.Machine

/-- The six registers (R20), then the model's own two fields: the sample events of the coming steps, oldest first (log entry 1),
and the number of the step, which selects the free event of a step that `events` does not cover (log entry 2). -/
structure State where
  /-- `PHASE` (R21). -/
  phase : Phase
  /-- `SHREG` (R22). -/
  shreg : Frame
  /-- `BITCNT` (R24). -/
  bitcnt : BitVec 6
  /-- `T0` (R25). -/
  t0 : Instant
  /-- `STATUS` (R26). -/
  status : Status
  /-- `FAIL_PHASE` (R27, R65). -/
  failPhase : BitVec 3
  /-- The inputs of the coming steps (R30, R31); not the spec's state (R29). -/
  events : List SampleEvent
  /-- The number of the step; not the spec's state. -/
  stepNo : Nat
  deriving DecidableEq, Repr

/-- The reasons a step could stop with a fault: none. "there is no fault, no stuck state and no refusal" (R30); a failed read is
a value of `STATUS` in a next state (R130, R131). -/
inductive Fault where
  deriving DecidableEq, Repr

/-- The reasons a step could be refused. -/
inductive Refusal where
  /-- Raised by an arm of `exec` whose instruction has no meaning yet; safe. No arm raises it. -/
  | notModelled (mnemonic : String)
  deriving DecidableEq, Repr

/-- `ResetState` (R39): every register 0. The model's own fields hold no event and step number 0 (DESIGN CHOICE, log entries 1
and 2). -/
def State.reset : State where
  phase := .idle
  shreg := 0
  bitcnt := 0
  t0 := 0
  status := .none
  failPhase := 0
  events := []
  stepNo := 0

end Sys2Proof.Machine
end

