-- ==== Sys2Proof/Machine/Ops.lean ====
section
/-! DEFINITION. The named operations over the inputs and the registers: the sample event of a step, the three I/O primitives,
reset, the acceptance of a read, entering a timed phase, taking a bit, and raising a failure. -/

namespace Sys2Proof.Machine

/-! ### The inputs of a step -/

/-- The sample event of this step (R30): the oldest listed one, or a free value where none is listed (log entry 2). -/
def event (s : State) : SampleEvent :=
  match s.events with
  | e :: _ => e
  | [] => Config.freeEvent s.stepNo

/-- `LineSample()` (R12, R44). -/
def lineSample (s : State) : Level := (event s).lineIn

/-- `ClockNow()` (R12, R46). -/
def clockNow (s : State) : Instant := (event s).now

/-- The step is over: its sample event is gone. -/
def consume (s : State) : State := { s with events := s.events.tail, stepNo := s.stepNo + 1 }

/-- What selects this step's operation: the register `PHASE` and the input `start` (R30, R61, R62). -/
def opWord (s : State) : OpWord := ⟨s.phase.code, (event s).start⟩

/-- The operation of this step. Nothing is fetched from a memory (R53): `PHASE` plays the program counter (R21). -/
def fetch (s : State) : Instr := decode (opWord s)

/-- A quiet sample event at the Instant `now`: no reset, no request, the line released high. -/
def quietEvent (now : Instant) : SampleEvent := ⟨false, false, .high, now⟩

/-- The sample event whose bits a placed table word replaces: the first listed one, or a quiet one at `T0` (log entry 6). -/
def placedEvent (s : State) : SampleEvent := s.events.head?.getD (quietEvent s.t0)

/-! ### The registers -/

/-- Reset (R150): the six registers take the values of `ResetState` (R39). -/
def resetRegisters (s : State) : State :=
  { s with phase := .idle, shreg := 0, bitcnt := 0, t0 := 0, status := .none, failPhase := 0 }

/-- `READ` accepted (R81): all six registers are written. It is also what clears a failure (R134): the engine has no other
return from one. -/
def acceptRead (s : State) : State :=
  { s with phase := .startSignal, shreg := 0, bitcnt := 0, t0 := clockNow s, status := .none, failPhase := 0 }

/-- Enter a timed phase: `T0 <- now ; PHASE <- p` (R84, R96). -/
def enter (p : Phase) (s : State) : State := { s with t0 := clockNow s, phase := p }

/-- Take one bit: `SHREG <- SHREG[38:0] ++ bit` (R103) and `BITCNT <- BITCNT + 1` (R104; on a count that no run reaches, 63,
six bits wrap, log entry 7). -/
def shiftIn (bit : Bool) (s : State) : State :=
  { s with shreg := s.shreg.extractLsb 38 0 ++ BitVec.ofBool bit, bitcnt := s.bitcnt + 1 }

/-- Raise a failure: the whole effect (R130, R131). Nothing is saved and control goes to `IDLE`. -/
def raise (f : Failure) (s : State) : State :=
  match f with
  | .timeout p => { s with status := .timeout, failPhase := p.code, phase := .idle }
  | .checksumMismatch => { s with status := .checksumMismatch, phase := .idle }

end Sys2Proof.Machine
end

