-- ==== Sys2Proof/Machine/Operands.lean ====
section
/-! DEFINITION. The computed operands: the elapsed time, the outcome of a wait, the bit of a pulse, the bytes of the frame
(30_encoding.md R68 to R71). -/

namespace Sys2Proof.Machine

/-- `Elapsed(T0) = (now - T0) mod 2^TIME_W` (R90). -/
def elapsed (s : State) : Duration := clockNow s - s.t0

/-- The three outcomes of one step of a wait (R91). -/
inductive WaitResult where
  | timedOut
  | reached (e : Duration)
  | pending
  deriving DecidableEq, Repr

/-- `WaitLevel(target, bound)` (R91): the deadline first, then the level (R92), compared unsigned at full width (R69). -/
def waitLevel (target : Level) (bound : Nat) (s : State) : WaitResult :=
  if bound ≤ (elapsed s).toNat then .timedOut
  else if lineSample s = target then .reached (elapsed s)
  else .pending

/-- `Classify(d)` (R102): at most `T_THRESH` is 0, more is 1. -/
def classify (d : Duration) : Bool := decide (Config.build.tThresh < d.toNat)

/-- `FRAME[i] = SHREG[39 - 8*i : 32 - 8*i]` (R11, R23). -/
def frameByte (f : Frame) (i : Fin 5) : Byte := f.extractLsb' (32 - 8 * i.val) 8

end Sys2Proof.Machine
end

