-- ==== Sys2Proof/Machine/Handshake.lean ====
section
/-! DEFINITION. The meanings of 41_wait_handshake.md: the shape of a wait phase, and the three handshake phases. -/

namespace Sys2Proof.Machine

/-- The one shape of the four waits that only advance (R93 to R95, R100): a timeout of the phase `own`, or the next phase with
`T0` loaded, or nothing. -/
def waitPhase (own : Phase) (target : Level) (bound : Nat) (next : Phase) (s : State) : State :=
  match waitLevel target bound s with
  | .timedOut => raise (.timeout own) s
  | .reached _ => enter next s
  | .pending => s

/-- `AWAIT_RESP_LOW` (R93). -/
def execAwaitRespLow (s : State) : Host.Outcome State Fault Refusal :=
  .next (waitPhase .awaitRespLow .low Config.build.bRespLow .awaitRespHigh s)

/-- `AWAIT_RESP_HIGH` (R94). -/
def execAwaitRespHigh (s : State) : Host.Outcome State Fault Refusal :=
  .next (waitPhase .awaitRespHigh .high Config.build.bRespHigh .awaitDataStart s)

/-- `AWAIT_DATA_START` (R95). -/
def execAwaitDataStart (s : State) : Host.Outcome State Fault Refusal :=
  .next (waitPhase .awaitDataStart .low Config.build.bDataStart .bitSync s)

end Sys2Proof.Machine
end

