-- ==== Sys2Proof/Machine/BitLoop.lean ====
section
/-! DEFINITION. The meanings of 42_bit_loop.md: `BIT_SYNC` and `BIT_MEASURE`. -/

namespace Sys2Proof.Machine

/-- `BIT_SYNC` (R100). -/
def execBitSync (s : State) : Host.Outcome State Fault Refusal :=
  .next (waitPhase .bitSync .high Config.build.bBitSync .bitMeasure s)

/-- What `BIT_MEASURE` does with a measured pulse (R101, R104): classify and shift, then leave the loop at the 40th bit without
loading `T0`, or start the next sync pulse. -/
def takePulse (d : Duration) (s : State) : State :=
  if s.bitcnt.toNat + 1 = Config.build.nBits then { shiftIn (classify d) s with phase := .checksum }
  else enter .bitSync (shiftIn (classify d) s)

/-- `BIT_MEASURE` (R101). -/
def execBitMeasure (s : State) : Host.Outcome State Fault Refusal :=
  .next
    (match waitLevel .low Config.build.bBitCap s with
    | .timedOut => raise (.timeout .bitMeasure) s
    | .reached d => takePulse d s
    | .pending => s)

end Sys2Proof.Machine
end

