-- ==== Sys2Proof/Machine/Flags.lean ====
section
/-! DEFINITION. What decides `STATUS` at the end of a read: the modular sum and its comparison (43_checksum_result.md). -/

namespace Sys2Proof.Machine

/-- `CSUM(s)` (R115): the exact sum of the first four bytes, narrowed to eight bits. -/
def csum (f : Frame) : Byte :=
  BitVec.ofNat 8
    ((frameByte f 0).toNat + (frameByte f 1).toNat + (frameByte f 2).toNat + (frameByte f 3).toNat)

/-- The sum invariant (R116): the computed checksum equals the received one, `SHREG[7:0]`. -/
def csumMatches (f : Frame) : Bool := decide (csum f = frameByte f 4)

end Sys2Proof.Machine
end

