-- ==== Sys2Proof/Machine/Checksum.lean ====
section
/-! DEFINITION. The meaning of 43_checksum_result.md: `CHECKSUM`. -/

namespace Sys2Proof.Machine

/-- `CHECKSUM` (R116): one step; neither the line nor the clock is looked at. -/
def execChecksum (s : State) : Host.Outcome State Fault Refusal :=
  .next (if csumMatches s.shreg then { s with status := .ok, phase := .idle } else raise .checksumMismatch s)

end Sys2Proof.Machine
end

