-- ==== Sys2Proof/Machine/CommandStart.lean ====
section
/-! DEFINITION. The meanings of 40_command_start.md: `READ`, `IDLE`, `START_SIGNAL`. -/

namespace Sys2Proof.Machine

/-- `READ` (R81). -/
def execRead (s : State) : Host.Outcome State Fault Refusal := .next (acceptRead s)

/-- `IDLE` with no request (R80): no register is written. -/
def execIdle (s : State) : Host.Outcome State Fault Refusal := .next s

/-- `START_SIGNAL`: hold (R83) until the elapsed time reaches `T_START_LOW`, then release (R84). The line is not looked at. -/
def execStartSignal (s : State) : Host.Outcome State Fault Refusal :=
  .next (if Config.build.tStartLow ≤ (elapsed s).toNat then enter .awaitRespLow s else s)

end Sys2Proof.Machine
end

