-- ==== Sys2Proof/Machine/Dispatch.lean ====
section
/-! DEFINITION. One arm for each operation of the opcode table (10_state.md R30). -/

namespace Sys2Proof.Machine

def exec (i : Instr) (s : State) : Host.Outcome State Fault Refusal :=
  match i with
  | .read => Sys2Proof.Machine.execRead s
  | .idle => Sys2Proof.Machine.execIdle s
  | .startSignal => Sys2Proof.Machine.execStartSignal s
  | .awaitRespLow => Sys2Proof.Machine.execAwaitRespLow s
  | .awaitRespHigh => Sys2Proof.Machine.execAwaitRespHigh s
  | .awaitDataStart => Sys2Proof.Machine.execAwaitDataStart s
  | .bitSync => Sys2Proof.Machine.execBitSync s
  | .bitMeasure => Sys2Proof.Machine.execBitMeasure s
  | .checksum => Sys2Proof.Machine.execChecksum s

end Sys2Proof.Machine
end

