-- ==== Sys2Proof/Machine/Cycle.lean ====
section
/-! DEFINITION. The two halves of a step: what it makes of its inputs, and the passing of the sample event. -/

namespace Sys2Proof.Machine

/-- What the step makes of this step's inputs (R30, R132): reset wins over everything, otherwise the operation that `PHASE` and
`start` select runs. -/
def react (s : State) : Host.Outcome State Fault Refusal :=
  if (event s).rst then .next (resetRegisters s) else exec (fetch s) s

/-- The end of a step: where it answers a next state, its sample event is gone. -/
def retire (o : Host.Outcome State Fault Refusal) : Host.Outcome State Fault Refusal :=
  match o with
  | .next t => .next (consume t)
  | .fault r => .fault r
  | .refused r => .refused r

end Sys2Proof.Machine
end

