-- ==== Sys2Proof/Machine/Step.lean ====
section
/-! DEFINITION. The step (10_state.md R30), and where a word of the opcode table is placed for it. -/

namespace Sys2Proof.Machine

/-- `Step` (R30). -/
def step (s : State) : Host.Outcome State Fault Refusal := retire (react s)

/-- Place a word of the opcode table where the next step selects its operation. A `CMD` word is the input `start` of the next
sample event, taken in `IDLE`; a `PHASE` word is the register `PHASE`, with no request where the word is `IDLE`. The next sample
event is no reset. Nothing is fetched from a memory (R53; log entry 6). -/
def State.withFetchWord (s : State) (nbits w : Nat) : State :=
  match formatOfWidth nbits with
  | .cmd =>
    { s with
      phase := .idle
      events := { placedEvent s with rst := false, start := w.testBit 0 } :: s.events.tail }
  | .phase =>
    { s with
      phase := Phase.ofCode (BitVec.ofNat 3 w)
      events :=
        { placedEvent s with rst := false, start := (placedEvent s).start && decide (w % 8 ≠ 0) } :: s.events.tail }

end Sys2Proof.Machine
end

