-- ==== Sys2Proof/Machine/Outputs.lean ====
section
/-! DEFINITION. The thirteen output ports, functions of the six registers (10_state.md R32 to R38). -/

namespace Sys2Proof.Machine

/-- The output ports of R32; a one-bit port is a Boolean, `true` for 1. -/
structure Outputs where
  driveLow : Bool
  excl : Bool
  yield : Bool
  busy : Bool
  done : Bool
  status : BitVec 2
  readingValid : Bool
  humidity : Byte
  temperature : Byte
  failPhase : BitVec 3
  diagFrame : Frame
  csumRx : Byte
  csumCalc : Byte
  deriving DecidableEq, Repr

/-- The exclusive region (R34): `2 ≤ PHASE ≤ 6`. -/
def inExclusiveRegion (p : Phase) : Bool := decide (2 ≤ p.code.toNat) && decide (p.code.toNat ≤ 6)

/-- The outputs in a state (R32 to R38). -/
def outputs (s : State) : Outputs where
  driveLow := decide (s.phase = .startSignal)
  excl := inExclusiveRegion s.phase
  yield := decide (s.phase = .startSignal)
  busy := decide (s.phase ≠ .idle)
  done := decide (s.phase = .idle) && decide (s.status ≠ .none)
  status := s.status.code
  readingValid := decide (s.status = .ok)
  humidity := if s.status = .ok then frameByte s.shreg 0 else 0
  temperature := if s.status = .ok then frameByte s.shreg 2 else 0
  failPhase := s.failPhase
  diagFrame := if s.status = .checksumMismatch then s.shreg else 0
  csumRx := if s.status = .checksumMismatch then frameByte s.shreg 4 else 0
  csumCalc := if s.status = .checksumMismatch then csum s.shreg else 0

end Sys2Proof.Machine
end

