-- ==== Sys2Proof/Safety.lean ====
section
/-! DEFINITION. The terms in which claims about runs are made: runs, the invariant of reachable states, the premises on the
environment, and what a wait, a bit cell and a whole read look like on the inputs. -/

namespace Sys2Proof.Safety

open Sys2Proof.Machine

/-- `k` steps of the machine. -/
def run (k : Nat) (s : State) : Host.Outcome State Fault Refusal := Host.Core.run Sys2Proof.core k s

/-- The state with the sample event `e` before the listed ones: what the next step samples. -/
def sampling (e : SampleEvent) (s : State) : State := { s with events := e :: s.events }

/-! ### The invariant -/

/-- What every step keeps of the registers (93_implementation_defined.md I15, 95_test_vectors.md section 5 property 10, and
R105, R120): register values outside it are reached by no run from reset. -/
structure Inv (s : State) : Prop where
  bitcnt_le : s.bitcnt.toNat ≤ 40
  checksum_full : s.phase = .checksum → s.bitcnt.toNat = 40
  loop_not_full : s.phase = .bitSync ∨ s.phase = .bitMeasure → s.bitcnt.toNat < 40
  before_loop : s.phase = .startSignal ∨ s.phase = .awaitRespLow ∨ s.phase = .awaitRespHigh ∨ s.phase = .awaitDataStart →
    s.bitcnt = 0 ∧ s.shreg = 0
  result_only_idle : s.status ≠ .none → s.phase = .idle
  failPhase_iff : s.failPhase ≠ 0 ↔ s.status = .timeout
  failPhase_range : s.status = .timeout → 2 ≤ s.failPhase.toNat ∧ s.failPhase.toNat ≤ 6
  shreg_lt : s.shreg.toNat < 2 ^ s.bitcnt.toNat
  ok_checked : s.status = .ok → s.bitcnt.toNat = 40 ∧ csum s.shreg = frameByte s.shreg 4
  mismatch_checked : s.status = .checksumMismatch → s.bitcnt.toNat = 40 ∧ csum s.shreg ≠ frameByte s.shreg 4

/-! ### Premises on the environment -/

/-- No reset is asked for. -/
def noReset (es : List SampleEvent) : Prop := ∀ e ∈ es, e.rst = false

/-- The clock condition of R30 with `SAMPLE_STEP_MAX` = `d`: after the Instant `t`, `now` grows by at most `d` from step to
step, modulo `2^TIME_W`. -/
def clockWithin (d : Nat) : Instant → List SampleEvent → Prop
  | _, [] => True
  | t, e :: es => (e.now - t).toNat ≤ d ∧ clockWithin d e.now es

/-- One step a microsecond: after the Instant `t`, `now` grows by exactly 1 from step to step. -/
def unitClock : Instant → List SampleEvent → Prop
  | _, [] => True
  | t, e :: es => e.now = t + 1 ∧ unitClock e.now es

/-- How far `now` moves on from the Instant `t` over the events. -/
def advance : Instant → List SampleEvent → Nat
  | _, [] => 0
  | t, e :: es => (e.now - t).toNat + advance e.now es

/-- Every `now` of the events moved on by `c`. -/
def shiftClock (c : Instant) (es : List SampleEvent) : List SampleEvent :=
  es.map fun e => { e with now := e.now + c }

/-! ### What happens on the inputs during a stay in a phase -/

/-- The sample events of one stay in a phase: those that leave the phase as it is, and the one that ends the stay. -/
structure Stay where
  pending : List SampleEvent
  last : SampleEvent
  deriving DecidableEq, Repr

/-- The events of a stay in order. -/
def Stay.tape (w : Stay) : List SampleEvent := w.pending ++ [w.last]

/-- Before the end of a wait since `t0`: no reset, not yet the target level, not yet the bound (R91, `Pending`). -/
def Stay.waits (w : Stay) (target : Level) (bound : Nat) (t0 : Instant) : Prop :=
  ∀ e ∈ w.pending, e.rst = false ∧ e.lineIn ≠ target ∧ (e.now - t0).toNat < bound

/-- A wait since `t0` that samples its target level in time (R91, `Reached`). -/
def Stay.reaches (w : Stay) (target : Level) (bound : Nat) (t0 : Instant) : Prop :=
  w.waits target bound t0 ∧ w.last.rst = false ∧ w.last.lineIn = target ∧ (w.last.now - t0).toNat < bound

/-- A wait since `t0` that does not (R91, `TimedOut`): the level of the last sample does not matter (R92). -/
def Stay.timesOut (w : Stay) (target : Level) (bound : Nat) (t0 : Instant) : Prop :=
  w.waits target bound t0 ∧ w.last.rst = false ∧ bound ≤ (w.last.now - t0).toNat

/-- The start signal since `t0` (R83, R84): the line is not looked at. -/
def Stay.holdsStart (w : Stay) (t0 : Instant) : Prop :=
  (∀ e ∈ w.pending, e.rst = false ∧ (e.now - t0).toNat < 20000) ∧ w.last.rst = false ∧ 20000 ≤ (w.last.now - t0).toNat

/-- A bit cell (R68): the sync pulse and the data pulse. -/
structure Cell where
  sync : Stay
  pulse : Stay
  deriving DecidableEq, Repr

/-- The events of a cell in order. -/
def Cell.tape (c : Cell) : List SampleEvent := c.sync.tape ++ c.pulse.tape

/-- Both pulses of the cell, the first timed since `t0`, are within their bounds. -/
def Cell.reaches (c : Cell) (t0 : Instant) : Prop :=
  c.sync.reaches .high 80 t0 ∧ c.pulse.reaches .low 100 c.sync.last.now

/-- The bit a cell carries (R68, R102): the measured length of its data pulse against the threshold. -/
def Cell.bit (c : Cell) : Bool := decide (48 < (c.pulse.last.now - c.sync.last.now).toNat)

/-- The cells one after the other, the first timed since `t0`: each data pulse ends where the next sync pulse begins (R98). -/
def cellsReach : Instant → List Cell → Prop
  | _, [] => True
  | t0, c :: cs => c.reaches t0 ∧ cellsReach c.pulse.last.now cs

/-- The inputs of one read: the accept, the start signal, the three handshake waits, the bit cells, the checksum step (R67). -/
structure Waveform where
  accept : SampleEvent
  hold : Stay
  respLow : Stay
  respHigh : Stay
  dataStart : Stay
  cells : List Cell
  check : SampleEvent
  deriving DecidableEq, Repr

/-- The events of a read in order. -/
def Waveform.tape (w : Waveform) : List SampleEvent :=
  w.accept :: (w.hold.tape ++ w.respLow.tape ++ w.respHigh.tape ++ w.dataStart.tape ++ w.cells.flatMap Cell.tape ++ [w.check])

/-- A waveform whose read takes all 40 bits: it is accepted, every wait reaches its level within the bound of its phase, and
there are 40 cells (R8, R67). -/
structure Waveform.Complete (w : Waveform) : Prop where
  accepted : w.accept.rst = false ∧ w.accept.start = true
  held : w.hold.holdsStart w.accept.now
  respLow : w.respLow.reaches .low 60 w.hold.last.now
  respHigh : w.respHigh.reaches .high 100 w.respLow.last.now
  dataStart : w.dataStart.reaches .low 100 w.respHigh.last.now
  cells : cellsReach w.dataStart.last.now w.cells
  full : w.cells.length = 40
  checked : w.check.rst = false

/-- The bits a waveform carries, in the order received. -/
def Waveform.bits (w : Waveform) : List Bool := w.cells.map Cell.bit

/-- One bit stored in a buffer of bytes at a cursor, as R103 writes the source's buffer out:
`byte[cursor div 8] |= bit << (7 - cursor mod 8)`, and the cursor moves on. -/
def storeAtCursor (buffer : List Byte × Nat) (bit : Bool) : List Byte × Nat :=
  (buffer.1.modify (buffer.2 / 8) fun b => b ||| (BitVec.ofBool bit).setWidth 8 <<< (7 - buffer.2 % 8), buffer.2 + 1)

/-- The bits of a byte, most significant first (R42). -/
def byteBits (b : Byte) : List Bool := (List.range 8).map fun k => b.getLsbD (7 - k)

end Sys2Proof.Safety
end

