-- ==== Sys2Proof/WellFormed.lean ====
section
/-! DEFINITION. Well-formedness: of an operation (there is nothing to check, 30_encoding.md R72) and of a build's parameters
(the constraints of 00_scope.md R9). -/

namespace Sys2Proof

/-- Every operation is well formed: it has no operand, and there is "no illegal, reserved, hint or custom encoding" (R72). -/
def Instr.wellFormed : Instr → Bool
  | .read => true
  | .idle => true
  | .startSignal => true
  | .awaitRespLow => true
  | .awaitRespHigh => true
  | .awaitDataStart => true
  | .bitSync => true
  | .bitMeasure => true
  | .checksum => true

namespace Config

/-- R9: `0 ≤ T_THRESH < B_BIT_CAP`. -/
def Params.threshBelowCap (p : Params) : Bool := decide (p.tThresh < p.bBitCap)

/-- R9: every bound and `T_START_LOW` is less than `2^TIME_W`. -/
def Params.timesFit (p : Params) : Bool :=
  [p.tStartLow, p.bRespLow, p.bRespHigh, p.bDataStart, p.bBitSync, p.bBitCap].all fun t => decide (t < 2 ^ p.timeW)

/-- R9: `N_BITS = 8 * N_BYTES`. -/
def Params.wholeBytes (p : Params) : Bool := decide (p.nBits = 8 * p.nBytes)

/-- R9: `N_BITS < 2^BITCNT_W`. -/
def Params.countFits (p : Params) : Bool := decide (p.nBits < 2 ^ p.bitcntW)

/-- The constraints a build must satisfy (R9). -/
def Params.wellFormed (p : Params) : Bool := p.threshBelowCap && p.timesFit && p.wholeBytes && p.countFits

end Config

end Sys2Proof
end

