-- ==== Sys2Proof/Certificates/Slice0/Obligations.lean ====
section
/-! DEFINITION. The statements for the provers. Bounds and thresholds are written as the numbers of 00_scope.md R8, and sums,
shifts and differences in plain arithmetic, so that a statement does not repeat the model's own functions. -/

open Sys2Proof Sys2Proof.Machine Sys2Proof.Safety

/-! ### Encodings and the step -/

/-- The nine protocol parameters are the document's literals (R8). `TIME_W`, `BITCNT_W` and the constraints on a build are the
spec's own choices (R9; log entry 5). -/
def Obligations.BuildParametersAreTheDocuments : Prop :=
  Config.build.tStartLow = 20000 ∧ Config.build.bRespLow = 60 ∧ Config.build.bRespHigh = 100 ∧
  Config.build.bDataStart = 100 ∧ Config.build.bBitSync = 80 ∧ Config.build.bBitCap = 100 ∧ Config.build.tThresh = 48 ∧
  Config.build.nBits = 40 ∧ Config.build.nBytes = 5 ∧ Config.build.timeW = 32 ∧ Config.build.bitcntW = 6 ∧
  Config.build.wellFormed = true

/-- R61, R62: the words of the two formats, written out bit by bit, decode to the operations they stand for, `start` is read in
`IDLE` alone, and a zero command word is no command. -/
def Obligations.WordsDecodeAsTabled : Prop :=
  decodeWord .cmd 0b1 = .ok .read ∧ decodeWord .cmd 0b0 = .error .noRequest ∧
  decodeWord .phase 0b000 = .ok .idle ∧ decodeWord .phase 0b001 = .ok .startSignal ∧
  decodeWord .phase 0b010 = .ok .awaitRespLow ∧ decodeWord .phase 0b011 = .ok .awaitRespHigh ∧
  decodeWord .phase 0b100 = .ok .awaitDataStart ∧ decodeWord .phase 0b101 = .ok .bitSync ∧
  decodeWord .phase 0b110 = .ok .bitMeasure ∧ decodeWord .phase 0b111 = .ok .checksum ∧
  decode ⟨0b000, true⟩ = .read ∧ decode ⟨0b000, false⟩ = .idle ∧
  ∀ (c : BitVec 3) (b b' : Bool), c ≠ 0 → decode ⟨c, b⟩ = decode ⟨c, b'⟩

/-- Decoding an encoded operation gives it back, as a step's word and as a table word; and a word decodes to what its own
canonical word decodes to. -/
def Obligations.DecodeInvertsEncode : Prop :=
  (∀ i : Instr, i.wellFormed = true →
    decode (encode i) = i ∧ decodeWord (encodeTableWord i).1 (encodeTableWord i).2 = .ok i) ∧
  (∀ w : OpWord, encode (decode w) = { w with start := w.start && decide (w.phase = 0) })

/-- R63: the codes of `STATUS`, and bit 1 set exactly when the last read failed. -/
def Obligations.StatusCodes : Prop :=
  Status.none.code = 0b00 ∧ Status.ok.code = 0b01 ∧ Status.timeout.code = 0b10 ∧ Status.checksumMismatch.code = 0b11 ∧
  ∀ st : Status, st.code.getLsbD 1 = true ↔ st = .timeout ∨ st = .checksumMismatch

/-- R30: a step that is no reset runs the operation that `PHASE` and `start` decode to, and consumes its sample event. -/
def Obligations.StepRunsDecodedOperation : Prop :=
  ∀ (s t : State) (i : Instr), (event s).rst = false → decode ⟨s.phase.code, (event s).start⟩ = i → i.wellFormed = true →
    exec i s = .next t → step s = .next { t with events := t.events.tail, stepNo := t.stepNo + 1 }

/-- R30, R53: every operation in every state answers a next state, and touches neither the inputs nor the step number. -/
def Obligations.EveryOperationCompletes : Prop :=
  ∀ (i : Instr) (s : State), ∃ t, exec i s = .next t ∧ t.events = s.events ∧ t.stepNo = s.stepNo

/-- R30: the step is total: no fault, no refusal; it consumes one sample event. -/
def Obligations.StepIsTotal : Prop :=
  ∀ s : State, ∃ t, step s = .next t ∧ t.events = s.events.tail ∧ t.stepNo = s.stepNo + 1

/-- A word placed by `withFetchWord` is what the next step runs (log entry 6, the model's choice). -/
def Obligations.PlacedWordRunsNext : Prop :=
  ∀ (s : State) (nbits w : Nat) (i : Instr), decodeTableWord nbits w = some i →
    step (s.withFetchWord nbits w) =
      (match exec i (s.withFetchWord nbits w) with
      | .next t => .next { t with events := s.events.tail, stepNo := s.stepNo + 1 }
      | .fault r => .fault r
      | .refused r => .refused r)

/-! ### Reset -/

/-- R39: the reset values of the six registers, the outputs that follow, and that without a request nothing happens. -/
def Obligations.ResetStateValues : Prop :=
  State.reset.phase = .idle ∧ State.reset.shreg = 0 ∧ State.reset.bitcnt = 0 ∧ State.reset.t0 = 0 ∧
  State.reset.status = .none ∧ State.reset.failPhase = 0 ∧
  outputs State.reset = ⟨false, false, false, false, false, 0, false, 0, 0, 0, 0, 0, 0⟩ ∧
  ∀ s : State, s.phase = .idle → (event s).rst = false → (event s).start = false →
    step s = .next { s with events := s.events.tail, stepNo := s.stepNo + 1 }

/-- R150: at a step with `rst` = 1 the six registers take the values of `ResetState`, whatever the state and the other
inputs, and no output is set afterwards; without a request the next step changes nothing. -/
def Obligations.ResetWinsOverEverything : Prop :=
  ∀ s : State, (event s).rst = true →
    ∃ t, step s = .next t ∧
      t = ⟨.idle, 0, 0, 0, .none, 0, s.events.tail, s.stepNo + 1⟩ ∧
      outputs t = ⟨false, false, false, false, false, 0, false, 0, 0, 0, 0, 0, 0⟩ ∧
      ((event t).rst = false → (event t).start = false →
        step t = .next { t with events := t.events.tail, stepNo := t.stepNo + 1 })

/-! ### READ, IDLE, START_SIGNAL -/

/-- R81: an accepted `READ` writes all six registers, and what the ports show after it. -/
def Obligations.ReadWritesAllRegisters : Prop :=
  ∀ s : State, ∃ t, exec .read s = .next t ∧
    t = { s with phase := .startSignal, shreg := 0, bitcnt := 0, t0 := (event s).now, status := .none, failPhase := 0 } ∧
    outputs t = ⟨true, false, true, true, false, 0, false, 0, 0, 0, 0, 0, 0⟩ ∧
    (s.phase = .idle → (event s).rst = false → (event s).start = true →
      step s = .next { t with events := s.events.tail, stepNo := s.stepNo + 1 })

/-- R80: `IDLE` with no request writes no register. -/
def Obligations.IdleWritesNothing : Prop :=
  ∀ s : State, exec .idle s = .next s ∧
    (s.phase = .idle → (event s).rst = false → (event s).start = false →
      step s = .next { s with events := s.events.tail, stepNo := s.stepNo + 1 })

/-- R82: outside `IDLE` the step is the same whether `start` is 1 or 0. -/
def Obligations.StartIgnoredWhileBusy : Prop :=
  ∀ (s : State) (e : SampleEvent), s.phase ≠ .idle →
    step (sampling { e with start := true } s) = step (sampling { e with start := false } s)

/-- R83: `START_SIGNAL` holds while the elapsed time is below 20000: no register is written, so the line stays driven. -/
def Obligations.StartSignalHolds : Prop :=
  ∀ s : State, ((event s).now - s.t0).toNat < 20000 →
    exec .startSignal s = .next s ∧ (s.phase = .startSignal → (outputs s).driveLow = true)

/-- R84: `START_SIGNAL` releases at 20000 or more: `T0` is loaded, the line is released, the exclusive region is entered; nothing
else is written. -/
def Obligations.StartSignalReleases : Prop :=
  ∀ s : State, 20000 ≤ ((event s).now - s.t0).toNat →
    ∃ t, exec .startSignal s = .next t ∧ t = { s with t0 := (event s).now, phase := .awaitRespLow } ∧
      (outputs t).driveLow = false ∧ (outputs t).yield = false ∧ (outputs t).excl = true

/-- R163: with one step a microsecond the line is held low for the 20000 steps after the accept and released by the step at
20000 microseconds. -/
def Obligations.StartSignalLastsTwentyMilliseconds : Prop :=
  ∀ (s : State) (e : SampleEvent) (es : List SampleEvent), s.phase = .idle → s.events = e :: es → e.rst = false →
    e.start = true → noReset es → unitClock e.now es → 20000 ≤ es.length →
    (∀ k, k < 20000 → ∃ t, run (k + 1) s = .next t ∧ (outputs t).driveLow = true ∧ (outputs t).excl = false) ∧
    (∃ t, run 20001 s = .next t ∧ t.phase = .awaitRespLow ∧ t.t0 = e.now + 20000 ∧ (outputs t).driveLow = false ∧
      (outputs t).excl = true)

/-! ### The waits -/

/-- R90: `Elapsed` is the difference modulo `2^32`, and it is the true advance of the clock wherever `now` wraps, as long as
that is below `2^32`. -/
def Obligations.ElapsedIsModularDifference : Prop :=
  (∀ s : State, (elapsed s).toNat = ((event s).now.toNat + 2 ^ 32 - s.t0.toNat) % 2 ^ 32) ∧
  (∀ (s : State) (n : Nat), n < 2 ^ 32 → (event s).now = s.t0 + BitVec.ofNat 32 n → (elapsed s).toNat = n)

/-- R91, R92: the three outcomes of a wait, the deadline tested first; a wait succeeds exactly on the target level below the
bound. -/
def Obligations.WaitLevelOutcomes : Prop :=
  ∀ (target : Level) (bound : Nat) (s : State),
    (bound ≤ ((event s).now - s.t0).toNat → waitLevel target bound s = .timedOut) ∧
    (((event s).now - s.t0).toNat < bound → (event s).lineIn = target →
      waitLevel target bound s = .reached ((event s).now - s.t0)) ∧
    (((event s).now - s.t0).toNat < bound → (event s).lineIn ≠ target → waitLevel target bound s = .pending) ∧
    (∀ d, waitLevel target bound s = .reached d ↔
      d = (event s).now - s.t0 ∧ (event s).lineIn = target ∧ d.toNat < bound)

/-- R93: `AWAIT_RESP_LOW`, its three outcomes. -/
def Obligations.AwaitRespLowOutcomes : Prop :=
  ∀ s : State,
    (60 ≤ ((event s).now - s.t0).toNat →
      exec .awaitRespLow s = .next { s with status := .timeout, failPhase := 2, phase := .idle }) ∧
    (((event s).now - s.t0).toNat < 60 → (event s).lineIn = .low →
      exec .awaitRespLow s = .next { s with t0 := (event s).now, phase := .awaitRespHigh }) ∧
    (((event s).now - s.t0).toNat < 60 → (event s).lineIn = .high → exec .awaitRespLow s = .next s)

/-- R94: `AWAIT_RESP_HIGH`, its three outcomes. -/
def Obligations.AwaitRespHighOutcomes : Prop :=
  ∀ s : State,
    (100 ≤ ((event s).now - s.t0).toNat →
      exec .awaitRespHigh s = .next { s with status := .timeout, failPhase := 3, phase := .idle }) ∧
    (((event s).now - s.t0).toNat < 100 → (event s).lineIn = .high →
      exec .awaitRespHigh s = .next { s with t0 := (event s).now, phase := .awaitDataStart }) ∧
    (((event s).now - s.t0).toNat < 100 → (event s).lineIn = .low → exec .awaitRespHigh s = .next s)

/-- R95: `AWAIT_DATA_START`, its three outcomes. -/
def Obligations.AwaitDataStartOutcomes : Prop :=
  ∀ s : State,
    (100 ≤ ((event s).now - s.t0).toNat →
      exec .awaitDataStart s = .next { s with status := .timeout, failPhase := 4, phase := .idle }) ∧
    (((event s).now - s.t0).toNat < 100 → (event s).lineIn = .low →
      exec .awaitDataStart s = .next { s with t0 := (event s).now, phase := .bitSync }) ∧
    (((event s).now - s.t0).toNat < 100 → (event s).lineIn = .high → exec .awaitDataStart s = .next s)

/-- R100: `BIT_SYNC`, its three outcomes. -/
def Obligations.BitSyncOutcomes : Prop :=
  ∀ s : State,
    (80 ≤ ((event s).now - s.t0).toNat →
      exec .bitSync s = .next { s with status := .timeout, failPhase := 5, phase := .idle }) ∧
    (((event s).now - s.t0).toNat < 80 → (event s).lineIn = .high →
      exec .bitSync s = .next { s with t0 := (event s).now, phase := .bitMeasure }) ∧
    (((event s).now - s.t0).toNat < 80 → (event s).lineIn = .low → exec .bitSync s = .next s)

/-- 95_test_vectors.md X3, over whole stays: in each of the five waits, samples that never show the target level keep the engine
in the phase, and the first step at or after the bound ends the read with `Timeout` of that phase, even if it shows the target
level; `SHREG`, `BITCNT` and `T0` are kept. -/
def Obligations.TimeoutIsAttributedToItsPhase : Prop :=
  ∀ (s : State) (w : Stay) (rest : List SampleEvent) (p : Phase) (target : Level) (bound : Nat),
    (p, target, bound) ∈
      [(Phase.awaitRespLow, Level.low, 60), (Phase.awaitRespHigh, Level.high, 100), (Phase.awaitDataStart, Level.low, 100),
        (Phase.bitSync, Level.high, 80), (Phase.bitMeasure, Level.low, 100)] →
    s.phase = p → s.events = w.tape ++ rest → w.timesOut target bound s.t0 →
    (∀ k, k ≤ w.pending.length → ∃ t, run k s = .next t ∧ t = { s with events := s.events.drop k, stepNo := s.stepNo + k }) ∧
    run (w.pending.length + 1) s =
      .next ⟨.idle, s.shreg, s.bitcnt, s.t0, .timeout, p.code, rest, s.stepNo + w.pending.length + 1⟩

/-- R158: with a clock that stands still below the bound a read hangs: in the start signal whatever is on the line, with the line
held low; in each of the five waits where the level never comes, with the line released. -/
def Obligations.StoppedClockHangsTheRead : Prop :=
  (∀ (s : State) (now : Instant), s.phase = .startSignal → (now - s.t0).toNat < 20000 →
    (∀ e ∈ s.events, e.rst = false ∧ e.now = now) →
    ∃ t, run s.events.length s = .next t ∧ t = { s with events := [], stepNo := s.stepNo + s.events.length } ∧
      (outputs t).busy = true ∧ (outputs t).driveLow = true) ∧
  (∀ (s : State) (p : Phase) (target : Level) (bound : Nat) (now : Instant),
    (p, target, bound) ∈
      [(Phase.awaitRespLow, Level.low, 60), (Phase.awaitRespHigh, Level.high, 100), (Phase.awaitDataStart, Level.low, 100),
        (Phase.bitSync, Level.high, 80), (Phase.bitMeasure, Level.low, 100)] →
    s.phase = p → (now - s.t0).toNat < bound →
    (∀ e ∈ s.events, e.rst = false ∧ e.lineIn ≠ target ∧ e.now = now) →
    ∃ t, run s.events.length s = .next t ∧ t = { s with events := [], stepNo := s.stepNo + s.events.length } ∧
      (outputs t).busy = true ∧ (outputs t).driveLow = false)

/-- R158: a step whose `now` lies before `T0` ends the current wait with `Timeout`, and ends the start signal early. -/
def Obligations.BackwardClockEndsTheWait : Prop :=
  ∀ (s : State) (n : Nat), 1 ≤ n → n ≤ 2 ^ 31 → (event s).now = s.t0 - BitVec.ofNat 32 n →
    exec .startSignal s = .next { s with t0 := (event s).now, phase := .awaitRespLow } ∧
    exec .awaitRespLow s = .next { s with status := .timeout, failPhase := 2, phase := .idle } ∧
    exec .awaitRespHigh s = .next { s with status := .timeout, failPhase := 3, phase := .idle } ∧
    exec .awaitDataStart s = .next { s with status := .timeout, failPhase := 4, phase := .idle } ∧
    exec .bitSync s = .next { s with status := .timeout, failPhase := 5, phase := .idle } ∧
    exec .bitMeasure s = .next { s with status := .timeout, failPhase := 6, phase := .idle }

/-! ### The bit loop -/

/-- R102: the discriminator. -/
def Obligations.ClassifyAgainstThreshold : Prop :=
  ∀ d : Duration, (d.toNat ≤ 48 → classify d = false) ∧ (48 < d.toNat → classify d = true)

/-- R101: `BIT_MEASURE`, its outcomes: timeout at 100 or more; a bit taken, with the loop gone round or left; or nothing. In
every state that meets the invariant of `StepKeepsInv`, `BITCNT` is below 40 in this phase. -/
def Obligations.BitMeasureOutcomes : Prop :=
  ∀ s : State,
    (100 ≤ ((event s).now - s.t0).toNat →
      exec .bitMeasure s = .next { s with status := .timeout, failPhase := 6, phase := .idle }) ∧
    (((event s).now - s.t0).toNat < 100 → (event s).lineIn = .low → s.bitcnt.toNat < 39 →
      exec .bitMeasure s = .next { s with
        shreg := BitVec.ofNat 40 (2 * s.shreg.toNat + if 48 < ((event s).now - s.t0).toNat then 1 else 0)
        bitcnt := BitVec.ofNat 6 (s.bitcnt.toNat + 1)
        t0 := (event s).now
        phase := .bitSync }) ∧
    (((event s).now - s.t0).toNat < 100 → (event s).lineIn = .low → s.bitcnt.toNat = 39 →
      exec .bitMeasure s = .next { s with
        shreg := BitVec.ofNat 40 (2 * s.shreg.toNat + if 48 < ((event s).now - s.t0).toNat then 1 else 0)
        bitcnt := 40
        phase := .checksum }) ∧
    (((event s).now - s.t0).toNat < 100 → (event s).lineIn = .high → exec .bitMeasure s = .next s)

/-- R103: after `n` shifts from a cleared register the `n` bits stand in `SHREG[n-1:0]`, the first at `n - 1`, and the bits above
are zero; nothing but `SHREG` and `BITCNT` changes. -/
def Obligations.ShiftsKeepBitsInOrder : Prop :=
  ∀ (s : State) (bits : List Bool), s.shreg = 0 → s.bitcnt = 0 → bits.length ≤ 40 →
    ∃ f : Frame, bits.foldl (fun u b => shiftIn b u) s = { s with shreg := f, bitcnt := BitVec.ofNat 6 bits.length } ∧
      (∀ k, k < bits.length → f.getLsbD (bits.length - 1 - k) = bits.getD k false) ∧
      (∀ j, bits.length ≤ j → f.getLsbD j = false)

/-- R42: after 40 shifts bit `k` received is `SHREG[39 - k]`, which is bit `7 - (k mod 8)` of byte `k div 8`. -/
def Obligations.BitsArePackedMostSignificantFirst : Prop :=
  ∀ (s : State) (bits : List Bool) (k : Nat) (hk : k < 40), bits.length = 40 →
    (bits.foldl (fun u b => shiftIn b u) s).shreg.getLsbD (39 - k) = bits.getD k false ∧
    (frameByte (bits.foldl (fun u b => shiftIn b u) s).shreg ⟨k / 8, by omega⟩).getLsbD (7 - k % 8) = bits.getD k false

/-- R68, R98: one whole bit cell. Its two pulses within their bounds take the engine from `BIT_SYNC` round the loop, or out of it
at the 40th bit, with the cell's bit shifted in and counted. -/
def Obligations.CellTakesItsBit : Prop :=
  ∀ (s : State) (c : Cell) (rest : List SampleEvent), s.phase = .bitSync → s.events = c.tape ++ rest → c.reaches s.t0 →
    s.bitcnt.toNat < 40 →
    run c.tape.length s = .next
      { s with
        shreg := BitVec.ofNat 40 (2 * s.shreg.toNat + if 48 < (c.pulse.last.now - c.sync.last.now).toNat then 1 else 0)
        bitcnt := BitVec.ofNat 6 (s.bitcnt.toNat + 1)
        t0 := if s.bitcnt.toNat = 39 then c.sync.last.now else c.pulse.last.now
        phase := if s.bitcnt.toNat = 39 then .checksum else .bitSync
        events := rest
        stepNo := s.stepNo + c.tape.length }

/-! ### The checksum and the result -/

/-- R23: byte `i` of the frame is bits `39 - 8i` down to `32 - 8i`. -/
def Obligations.FrameBytes : Prop :=
  ∀ f : Frame, (frameByte f 0).toNat = f.toNat / 2 ^ 32 % 256 ∧ (frameByte f 1).toNat = f.toNat / 2 ^ 24 % 256 ∧
    (frameByte f 2).toNat = f.toNat / 2 ^ 16 % 256 ∧ (frameByte f 3).toNat = f.toNat / 2 ^ 8 % 256 ∧
    (frameByte f 4).toNat = f.toNat % 256

/-- R115: the sum of the first four bytes modulo 256, which is also what an eight-bit adder without carry gives. -/
def Obligations.ChecksumIsModularSum : Prop :=
  ∀ f : Frame,
    (csum f).toNat =
      (f.toNat / 2 ^ 32 % 256 + f.toNat / 2 ^ 24 % 256 + f.toNat / 2 ^ 16 % 256 + f.toNat / 2 ^ 8 % 256) % 256 ∧
    csum f = frameByte f 0 + frameByte f 1 + frameByte f 2 + frameByte f 3

/-- R119: flipping any single bit of a frame that passes the checksum makes it fail. -/
def Obligations.SingleBitFlipFailsChecksum : Prop :=
  ∀ (f : Frame) (i : Nat), i < 40 → csum f = frameByte f 4 →
    csum (f ^^^ BitVec.twoPow 40 i) ≠ frameByte (f ^^^ BitVec.twoPow 40 i) 4

/-- R116: `CHECKSUM`: `OK` where the sum of the four bytes modulo 256 is the fifth, else `ChecksumMismatch`; no other register
is written. -/
def Obligations.ChecksumOutcomes : Prop :=
  ∀ s : State,
    ((s.shreg.toNat / 2 ^ 32 % 256 + s.shreg.toNat / 2 ^ 24 % 256 + s.shreg.toNat / 2 ^ 16 % 256 +
        s.shreg.toNat / 2 ^ 8 % 256) % 256 = s.shreg.toNat % 256 →
      exec .checksum s = .next { s with status := .ok, phase := .idle }) ∧
    ((s.shreg.toNat / 2 ^ 32 % 256 + s.shreg.toNat / 2 ^ 24 % 256 + s.shreg.toNat / 2 ^ 16 % 256 +
        s.shreg.toNat / 2 ^ 8 % 256) % 256 ≠ s.shreg.toNat % 256 →
      exec .checksum s = .next { s with status := .checksumMismatch, phase := .idle })

/-! ### Failures -/

/-- R130: the whole effect of `raise Timeout(p)` from one of the five waits, and what the ports show after it: the phase, and
nothing of the frame. -/
def Obligations.RaiseTimeoutEffect : Prop :=
  ∀ (s : State) (p : Phase),
    p ∈ [Phase.awaitRespLow, Phase.awaitRespHigh, Phase.awaitDataStart, Phase.bitSync, Phase.bitMeasure] →
    raise (.timeout p) s = { s with status := .timeout, failPhase := p.code, phase := .idle } ∧
    outputs (raise (.timeout p) s) = ⟨false, false, false, false, true, 2, false, 0, 0, p.code, 0, 0, 0⟩

/-- R131: the whole effect of `raise ChecksumMismatch`, and what the ports show after it: the frame and the two checksums, no
Reading. -/
def Obligations.RaiseChecksumMismatchEffect : Prop :=
  ∀ s : State,
    raise .checksumMismatch s = { s with status := .checksumMismatch, phase := .idle } ∧
    outputs (raise .checksumMismatch s) =
      ⟨false, false, false, false, true, 3, false, 0, 0, s.failPhase, s.shreg, frameByte s.shreg 4, csum s.shreg⟩

/-! ### The ports -/

/-- R33, R34, R35: the control ports are functions of `PHASE` and `STATUS`; the line is driven in the start signal only, never
in the exclusive region, and `busy` and `done` are never both set. -/
def Obligations.ControlPorts : Prop :=
  ∀ s : State,
    ((outputs s).driveLow = true ↔ s.phase = .startSignal) ∧
    ((outputs s).yield = (outputs s).driveLow) ∧
    ((outputs s).excl = true ↔ s.phase = .awaitRespLow ∨ s.phase = .awaitRespHigh ∨ s.phase = .awaitDataStart ∨
      s.phase = .bitSync ∨ s.phase = .bitMeasure) ∧
    ((outputs s).busy = true ↔ s.phase ≠ .idle) ∧
    ((outputs s).done = true ↔ s.phase = .idle ∧ s.status ≠ .none) ∧
    ¬((outputs s).excl = true ∧ (outputs s).driveLow = true) ∧
    ¬((outputs s).busy = true ∧ (outputs s).done = true)

/-- R36, R37, R38: the result ports, each shown only in the status it belongs to and 0 in every other; `fail_phase` is the register
ungated. -/
def Obligations.ResultPorts : Prop :=
  ∀ s : State,
    (outputs s).status = s.status.code ∧ (outputs s).failPhase = s.failPhase ∧
    ((outputs s).readingValid = true ↔ s.status = .ok) ∧
    (s.status = .ok → (outputs s).humidity.toNat = s.shreg.toNat / 2 ^ 32 % 256 ∧
      (outputs s).temperature.toNat = s.shreg.toNat / 2 ^ 16 % 256) ∧
    (s.status ≠ .ok → (outputs s).humidity = 0 ∧ (outputs s).temperature = 0) ∧
    (s.status = .checksumMismatch → (outputs s).diagFrame = s.shreg ∧ (outputs s).csumRx.toNat = s.shreg.toNat % 256 ∧
      (outputs s).csumCalc = csum s.shreg) ∧
    (s.status ≠ .checksumMismatch → (outputs s).diagFrame = 0 ∧ (outputs s).csumRx = 0 ∧ (outputs s).csumCalc = 0)

/-- R34: `excl` is 1 in the five phases from `AWAIT_RESP_LOW` to `BIT_MEASURE`; over a step that is no reset it rises only at
the end of the start signal, and falls only where the 40th bit is taken or a timeout is raised. -/
def Obligations.ExclusiveRegionEdges : Prop :=
  ∀ s t : State, (event s).rst = false → step s = .next t →
    ((outputs s).excl = true ↔
      s.phase ∈ [Phase.awaitRespLow, .awaitRespHigh, .awaitDataStart, .bitSync, .bitMeasure]) ∧
    ((outputs s).excl = false → (outputs t).excl = true → s.phase = .startSignal ∧ t.phase = .awaitRespLow) ∧
    ((outputs s).excl = true → (outputs t).excl = false →
      (s.phase = .bitMeasure ∧ t.phase = .checksum ∧ s.bitcnt.toNat = 39 ∧ t.bitcnt.toNat = 40) ∨
      (t.phase = .idle ∧ t.status = .timeout ∧ t.failPhase = s.phase.code))

/-! ### Rules of the whole machine -/

/-- R21: the transitions of `PHASE`, and no other. -/
def Obligations.PhaseTransitions : Prop :=
  ∀ s t : State, (event s).rst = false → step s = .next t →
    (s.phase, t.phase) ∈
      [(Phase.idle, Phase.idle), (.idle, .startSignal), (.startSignal, .startSignal), (.startSignal, .awaitRespLow),
        (.awaitRespLow, .awaitRespLow), (.awaitRespLow, .awaitRespHigh), (.awaitRespLow, .idle),
        (.awaitRespHigh, .awaitRespHigh), (.awaitRespHigh, .awaitDataStart), (.awaitRespHigh, .idle),
        (.awaitDataStart, .awaitDataStart), (.awaitDataStart, .bitSync), (.awaitDataStart, .idle),
        (.bitSync, .bitSync), (.bitSync, .bitMeasure), (.bitSync, .idle),
        (.bitMeasure, .bitMeasure), (.bitMeasure, .bitSync), (.bitMeasure, .checksum), (.bitMeasure, .idle),
        (.checksum, .idle)]

/-- R25: when `T0` is written, and with what. -/
def Obligations.StartInstantWrites : Prop :=
  ∀ s t : State, (event s).rst = false → step s = .next t →
    (((s.phase = .idle ∧ t.phase = .startSignal) ∨
        (1 ≤ s.phase.code.toNat ∧ s.phase.code.toNat ≤ 6 ∧ 2 ≤ t.phase.code.toNat ∧ t.phase.code.toNat ≤ 6 ∧
          s.phase ≠ t.phase)) → t.t0 = (event s).now) ∧
    (¬((s.phase = .idle ∧ t.phase = .startSignal) ∨
        (1 ≤ s.phase.code.toNat ∧ s.phase.code.toNat ≤ 6 ∧ 2 ≤ t.phase.code.toNat ∧ t.phase.code.toNat ≤ 6 ∧
          s.phase ≠ t.phase)) → t.t0 = s.t0)

/-- R22, R24: `SHREG` and `BITCNT` are cleared at an accept, take one bit where `BIT_MEASURE` completes, and are written
nowhere else. A count of 63, which no run reaches, wraps (log entry 7, the model's choice). -/
def Obligations.FrameRegisterWrites : Prop :=
  ∀ s t : State, (event s).rst = false → step s = .next t →
    (s.phase = .idle ∧ t.phase = .startSignal ∧ t.shreg = 0 ∧ t.bitcnt = 0) ∨
    (s.phase = .bitMeasure ∧ (t.phase = .bitSync ∨ t.phase = .checksum) ∧
      (∃ bit : Nat, bit ≤ 1 ∧ t.shreg.toNat = (2 * s.shreg.toNat + bit) % 2 ^ 40) ∧
      t.bitcnt.toNat = (s.bitcnt.toNat + 1) % 64) ∨
    (¬(s.phase = .idle ∧ t.phase = .startSignal) ∧
      ¬(s.phase = .bitMeasure ∧ (t.phase = .bitSync ∨ t.phase = .checksum)) ∧ t.shreg = s.shreg ∧ t.bitcnt = s.bitcnt)

/-- R26, R27: `STATUS` and `FAIL_PHASE` are cleared at an accept, written at the end of a read, and kept otherwise. -/
def Obligations.ResultRegisterWrites : Prop :=
  ∀ s t : State, (event s).rst = false → step s = .next t →
    (s.phase = .idle ∧ t.phase = .startSignal ∧ t.status = .none ∧ t.failPhase = 0) ∨
    (s.phase = .checksum ∧ t.phase = .idle ∧ t.failPhase = s.failPhase ∧
      t.status = if csum s.shreg = frameByte s.shreg 4 then .ok else .checksumMismatch) ∨
    (2 ≤ s.phase.code.toNat ∧ s.phase.code.toNat ≤ 6 ∧ t.phase = .idle ∧ t.status = .timeout ∧
      t.failPhase = s.phase.code) ∨
    ((s.phase = .idle ↔ t.phase = .idle) ∧ ¬(s.phase = .idle ∧ t.phase = .startSignal) ∧ t.status = s.status ∧
      t.failPhase = s.failPhase)

/-- R44, I6, I7: `line_in` has no effect in `IDLE`, `START_SIGNAL` and `CHECKSUM`; `now` has none in `IDLE` without a request
and in `CHECKSUM`; and at a reset step no other input has any. -/
def Obligations.UnreadInputsHaveNoEffect : Prop :=
  ∀ (s : State) (e e' : SampleEvent), e.rst = e'.rst →
    ((s.phase = .idle ∨ s.phase = .startSignal) → e.start = e'.start → e.now = e'.now →
      step (sampling e s) = step (sampling e' s)) ∧
    (s.phase = .checksum → step (sampling e s) = step (sampling e' s)) ∧
    (s.phase = .idle → e.start = false → e'.start = false → step (sampling e s) = step (sampling e' s)) ∧
    (e.rst = true → step (sampling e s) = step (sampling e' s))

/-- The invariant of reachable registers holds at reset. -/
def Obligations.ResetMeetsInv : Prop := Inv State.reset

/-- Every step keeps the invariant of reachable registers, whatever the inputs. -/
def Obligations.StepKeepsInv : Prop :=
  ∀ s t : State, Inv s → step s = .next t → Inv t

/-- R120: where the registers meet the invariant, a shown Reading is bytes 0 and 2 of a whole frame that passed the checksum. -/
def Obligations.ReadingComesFromCheckedFrame : Prop :=
  ∀ s : State, Inv s → (outputs s).readingValid = true →
    s.phase = .idle ∧ s.bitcnt.toNat = 40 ∧ csum s.shreg = frameByte s.shreg 4 ∧
    (outputs s).humidity = frameByte s.shreg 0 ∧ (outputs s).temperature = frameByte s.shreg 2 ∧
    (outputs s).failPhase = 0

/-- R122: without a reset and without a request, `IDLE` keeps every register and every output for any number of steps. -/
def Obligations.ResultStaysUntilNextRead : Prop :=
  ∀ (s : State) (k : Nat), s.phase = .idle → k ≤ s.events.length →
    (∀ e ∈ s.events, e.rst = false ∧ e.start = false) →
    ∃ t, run k s = .next t ∧ t = { s with events := s.events.drop k, stepNo := s.stepNo + k } ∧ outputs t = outputs s

/-! ### Whole reads -/

/-- R28: two engines in `IDLE`, whatever their other registers, given the same inputs beginning with an accepted `READ`, hold the
same registers and show the same outputs at every step after it. -/
def Obligations.NoCarryOverBetweenReads : Prop :=
  ∀ (s s' : State) (e : SampleEvent) (es : List SampleEvent) (k : Nat), s.phase = .idle → s'.phase = .idle →
    s.events = e :: es → s'.events = e :: es → e.rst = false → e.start = true → k ≤ es.length →
    ∃ t t', run (k + 1) s = .next t ∧ run (k + 1) s' = .next t' ∧ t' = { t with stepNo := t'.stepNo } ∧
      outputs t = outputs t'

/-- 95_test_vectors.md section 5 property 8: moving every `now` of a run that begins with an accepted `READ` and has no reset
by a constant moves `T0` by that constant and changes nothing else. -/
def Obligations.ReadIsInvariantUnderClockShift : Prop :=
  ∀ (s : State) (c : Instant) (e : SampleEvent) (es : List SampleEvent) (k : Nat), s.phase = .idle → s.events = e :: es →
    e.rst = false → e.start = true → noReset es → k ≤ es.length →
    ∃ t, run (k + 1) s = .next t ∧
      run (k + 1) { s with events := shiftClock c s.events } =
        .next { t with t0 := t.t0 + c, events := shiftClock c t.events }

/-- R67, R116: a read whose 40 cells are all within their bounds ends in `IDLE` with exactly the bits of the cells in `SHREG`,
in the order received, and with `OK` or `CHECKSUM_MISMATCH` as the sum says. -/
def Obligations.CompleteReadDeliversItsBits : Prop :=
  ∀ (s : State) (w : Waveform) (rest : List SampleEvent), s.phase = .idle → s.events = w.tape ++ rest → w.Complete →
    ∃ t, run w.tape.length s = .next t ∧ t.phase = .idle ∧ t.bitcnt = 40 ∧ t.failPhase = 0 ∧ t.events = rest ∧
      (∀ k, k < 40 → t.shreg.getLsbD (39 - k) = w.bits.getD k false) ∧
      t.status =
        if (t.shreg.toNat / 2 ^ 32 % 256 + t.shreg.toNat / 2 ^ 24 % 256 + t.shreg.toNat / 2 ^ 16 % 256 +
          t.shreg.toNat / 2 ^ 8 % 256) % 256 = t.shreg.toNat % 256 then .ok else .checksumMismatch

/-- R121: the round trip. For any four bytes, a complete waveform that carries them and their sum modulo 256 ends with the Reading
of bytes 0 and 2, and every diagnostic output 0. -/
def Obligations.RoundTripOfFourBytes : Prop :=
  ∀ (s : State) (w : Waveform) (rest : List SampleEvent) (b0 b1 b2 b3 : Byte), s.phase = .idle →
    s.events = w.tape ++ rest → w.Complete →
    w.bits = byteBits b0 ++ byteBits b1 ++ byteBits b2 ++ byteBits b3 ++ byteBits (b0 + b1 + b2 + b3) →
    ∃ t, run w.tape.length s = .next t ∧ (outputs t).done = true ∧ (outputs t).readingValid = true ∧
      (outputs t).humidity = b0 ∧ (outputs t).temperature = b2 ∧ (outputs t).diagFrame = 0 ∧ (outputs t).csumRx = 0 ∧
      (outputs t).csumCalc = 0 ∧ (outputs t).failPhase = 0

/-- R97, R161, R164: with one step a microsecond and no reset, every read ends, whatever is on the line: at the latest 27378 steps
after its accept the engine returns to `IDLE` with a result. -/
def Obligations.EveryReadEndsInTime : Prop :=
  ∀ (s : State) (e : SampleEvent) (es : List SampleEvent), s.phase = .idle → s.events = e :: es → e.rst = false →
    e.start = true → noReset es → unitClock e.now es → 27378 ≤ es.length →
    ∃ k t, k ≤ 27378 ∧ run (k + 1) s = .next t ∧ t.phase = .idle ∧
      (t.status = .ok ∨ t.status = .timeout ∨ t.status = .checksumMismatch)

/-- R161: for any `SAMPLE_STEP_MAX` = `d` (up to `2^31`), as long as a read is still busy, `now` has moved on from its accept by
at most 20000 + 7377 and the `d - 1` by which the release can come late. -/
def Obligations.BusyReadIsBoundedInTime : Prop :=
  ∀ (s : State) (d : Nat) (e : SampleEvent) (es : List SampleEvent), 1 ≤ d → d ≤ 2 ^ 31 → s.phase = .idle →
    s.events = e :: es → e.rst = false → e.start = true → noReset es → clockWithin d e.now es →
    (∀ k t, k ≤ es.length → run (k + 1) s = .next t → t.phase ≠ .idle) →
    advance e.now es ≤ 27377 + (d - 1)

/-! ### The cursor buffer -/

/-- R103, 90_conflicts.md C5: 40 bits leave in `SHREG` the same five bytes as a cleared buffer of five bytes written at a cursor. -/
def Obligations.ShiftRegisterEqualsCursorBuffer : Prop :=
  ∀ (s : State) (bits : List Bool), bits.length = 40 →
    bits.foldl storeAtCursor (List.replicate 5 0, 0) =
      ((List.finRange 5).map (frameByte (bits.foldl (fun u b => shiftIn b u) s).shreg), 40)

/-! ### The clock shift as a rule of one step -/

/-- 95_test_vectors.md section 5 property 8, as a rule of one step: two states whose `T0` and every `now` to come differ by the
same constant, and that agree in all else, go to two such states, at every step that is no reset. -/
def Obligations.StepKeepsClockShift : Prop :=
  ∀ (s t : State) (c : Instant), s.events ≠ [] → (event s).rst = false → step s = .next t →
    step { s with t0 := s.t0 + c, events := shiftClock c s.events } =
      .next { t with t0 := t.t0 + c, events := shiftClock c t.events }
end

