-- ==== Sys2Proof/Laws/Decode.lean ====
section
/-! SUPPORT. Lemmas of the codes and the decoder. -/

namespace Sys2Proof

@[simp] theorem Phase.ofCode_code (p : Phase) : Phase.ofCode p.code = p := by cases p <;> rfl

@[simp] theorem Phase.code_ofCode (c : BitVec 3) : (Phase.ofCode c).code = c := by revert c; decide

theorem Phase.code_injective {p q : Phase} (h : p.code = q.code) : p = q := by
  simpa using congrArg Phase.ofCode h

@[simp] theorem Level.ofCode_code (l : Level) : Level.ofCode l.code = l := by cases l <;> rfl

/-- The operation of a step, by its phase (R30). -/
def operationOf (p : Phase) (start : Bool) : Instr :=
  match p with
  | .idle => if start then .read else .idle
  | .startSignal => .startSignal
  | .awaitRespLow => .awaitRespLow
  | .awaitRespHigh => .awaitRespHigh
  | .awaitDataStart => .awaitDataStart
  | .bitSync => .bitSync
  | .bitMeasure => .bitMeasure
  | .checksum => .checksum

@[simp] theorem decode_code (p : Phase) (b : Bool) : decode ⟨p.code, b⟩ = operationOf p b := by cases p <;> rfl

theorem Machine.fetch_eq (s : Machine.State) : Machine.fetch s = operationOf s.phase (Machine.event s).start :=
  decode_code _ _

end Sys2Proof
end

