-- ==== Sys2Proof/Laws/State.lean ====
section
/-! SUPPORT. One lemma per field for each named update of the state, so that no later proof unfolds a record update. -/

namespace Sys2Proof.Machine

variable (s : State)

@[simp] theorem consume_phase : (consume s).phase = s.phase := rfl
@[simp] theorem consume_shreg : (consume s).shreg = s.shreg := rfl
@[simp] theorem consume_bitcnt : (consume s).bitcnt = s.bitcnt := rfl
@[simp] theorem consume_t0 : (consume s).t0 = s.t0 := rfl
@[simp] theorem consume_status : (consume s).status = s.status := rfl
@[simp] theorem consume_failPhase : (consume s).failPhase = s.failPhase := rfl
@[simp] theorem consume_events : (consume s).events = s.events.tail := rfl
@[simp] theorem consume_stepNo : (consume s).stepNo = s.stepNo + 1 := rfl

@[simp] theorem resetRegisters_phase : (resetRegisters s).phase = .idle := rfl
@[simp] theorem resetRegisters_shreg : (resetRegisters s).shreg = 0 := rfl
@[simp] theorem resetRegisters_bitcnt : (resetRegisters s).bitcnt = 0 := rfl
@[simp] theorem resetRegisters_t0 : (resetRegisters s).t0 = 0 := rfl
@[simp] theorem resetRegisters_status : (resetRegisters s).status = .none := rfl
@[simp] theorem resetRegisters_failPhase : (resetRegisters s).failPhase = 0 := rfl
@[simp] theorem resetRegisters_events : (resetRegisters s).events = s.events := rfl
@[simp] theorem resetRegisters_stepNo : (resetRegisters s).stepNo = s.stepNo := rfl

@[simp] theorem acceptRead_phase : (acceptRead s).phase = .startSignal := rfl
@[simp] theorem acceptRead_shreg : (acceptRead s).shreg = 0 := rfl
@[simp] theorem acceptRead_bitcnt : (acceptRead s).bitcnt = 0 := rfl
@[simp] theorem acceptRead_t0 : (acceptRead s).t0 = clockNow s := rfl
@[simp] theorem acceptRead_status : (acceptRead s).status = .none := rfl
@[simp] theorem acceptRead_failPhase : (acceptRead s).failPhase = 0 := rfl
@[simp] theorem acceptRead_events : (acceptRead s).events = s.events := rfl
@[simp] theorem acceptRead_stepNo : (acceptRead s).stepNo = s.stepNo := rfl

@[simp] theorem enter_phase (p : Phase) : (enter p s).phase = p := rfl
@[simp] theorem enter_shreg (p : Phase) : (enter p s).shreg = s.shreg := rfl
@[simp] theorem enter_bitcnt (p : Phase) : (enter p s).bitcnt = s.bitcnt := rfl
@[simp] theorem enter_t0 (p : Phase) : (enter p s).t0 = clockNow s := rfl
@[simp] theorem enter_status (p : Phase) : (enter p s).status = s.status := rfl
@[simp] theorem enter_failPhase (p : Phase) : (enter p s).failPhase = s.failPhase := rfl
@[simp] theorem enter_events (p : Phase) : (enter p s).events = s.events := rfl
@[simp] theorem enter_stepNo (p : Phase) : (enter p s).stepNo = s.stepNo := rfl

@[simp] theorem shiftIn_phase (b : Bool) : (shiftIn b s).phase = s.phase := rfl
@[simp] theorem shiftIn_shreg (b : Bool) : (shiftIn b s).shreg = s.shreg.extractLsb 38 0 ++ BitVec.ofBool b := rfl
@[simp] theorem shiftIn_bitcnt (b : Bool) : (shiftIn b s).bitcnt = s.bitcnt + 1 := rfl
@[simp] theorem shiftIn_t0 (b : Bool) : (shiftIn b s).t0 = s.t0 := rfl
@[simp] theorem shiftIn_status (b : Bool) : (shiftIn b s).status = s.status := rfl
@[simp] theorem shiftIn_failPhase (b : Bool) : (shiftIn b s).failPhase = s.failPhase := rfl
@[simp] theorem shiftIn_events (b : Bool) : (shiftIn b s).events = s.events := rfl
@[simp] theorem shiftIn_stepNo (b : Bool) : (shiftIn b s).stepNo = s.stepNo := rfl

@[simp] theorem raise_timeout_phase (p : Phase) : (raise (.timeout p) s).phase = .idle := rfl
@[simp] theorem raise_timeout_shreg (p : Phase) : (raise (.timeout p) s).shreg = s.shreg := rfl
@[simp] theorem raise_timeout_bitcnt (p : Phase) : (raise (.timeout p) s).bitcnt = s.bitcnt := rfl
@[simp] theorem raise_timeout_t0 (p : Phase) : (raise (.timeout p) s).t0 = s.t0 := rfl
@[simp] theorem raise_timeout_status (p : Phase) : (raise (.timeout p) s).status = .timeout := rfl
@[simp] theorem raise_timeout_failPhase (p : Phase) : (raise (.timeout p) s).failPhase = p.code := rfl
@[simp] theorem raise_timeout_events (p : Phase) : (raise (.timeout p) s).events = s.events := rfl
@[simp] theorem raise_timeout_stepNo (p : Phase) : (raise (.timeout p) s).stepNo = s.stepNo := rfl

@[simp] theorem raise_checksumMismatch_phase : (raise .checksumMismatch s).phase = .idle := rfl
@[simp] theorem raise_checksumMismatch_shreg : (raise .checksumMismatch s).shreg = s.shreg := rfl
@[simp] theorem raise_checksumMismatch_bitcnt : (raise .checksumMismatch s).bitcnt = s.bitcnt := rfl
@[simp] theorem raise_checksumMismatch_t0 : (raise .checksumMismatch s).t0 = s.t0 := rfl
@[simp] theorem raise_checksumMismatch_status : (raise .checksumMismatch s).status = .checksumMismatch := rfl
@[simp] theorem raise_checksumMismatch_failPhase : (raise .checksumMismatch s).failPhase = s.failPhase := rfl
@[simp] theorem raise_checksumMismatch_events : (raise .checksumMismatch s).events = s.events := rfl
@[simp] theorem raise_checksumMismatch_stepNo : (raise .checksumMismatch s).stepNo = s.stepNo := rfl

/-! What the next step samples after an event is put before the listed ones. -/

@[simp] theorem sampling_phase (e : SampleEvent) : (Safety.sampling e s).phase = s.phase := rfl
@[simp] theorem sampling_shreg (e : SampleEvent) : (Safety.sampling e s).shreg = s.shreg := rfl
@[simp] theorem sampling_bitcnt (e : SampleEvent) : (Safety.sampling e s).bitcnt = s.bitcnt := rfl
@[simp] theorem sampling_t0 (e : SampleEvent) : (Safety.sampling e s).t0 = s.t0 := rfl
@[simp] theorem sampling_status (e : SampleEvent) : (Safety.sampling e s).status = s.status := rfl
@[simp] theorem sampling_failPhase (e : SampleEvent) : (Safety.sampling e s).failPhase = s.failPhase := rfl
@[simp] theorem sampling_stepNo (e : SampleEvent) : (Safety.sampling e s).stepNo = s.stepNo := rfl
@[simp] theorem sampling_events (e : SampleEvent) : (Safety.sampling e s).events = e :: s.events := rfl
@[simp] theorem event_sampling (e : SampleEvent) : event (Safety.sampling e s) = e := rfl

/-- The sample event of a step is the first listed one. -/
theorem event_of_events {e : SampleEvent} {es : List SampleEvent} (h : s.events = e :: es) : event s = e := by
  simp [event, h]

/-- With nothing listed the sample event is the free value of the step. -/
theorem event_of_nil (h : s.events = []) : event s = Config.freeEvent s.stepNo := by
  simp [event, h]

end Sys2Proof.Machine
end

