-- ==== Sys2Proof/Laws/Ops.lean ====
section
/-! SUPPORT. One lemma for each shared operation that says once everything it can do. -/

namespace Sys2Proof.Machine

/-! ### The parameters as numbers -/

@[simp] theorem build_tStartLow : Config.build.tStartLow = 20000 := rfl
@[simp] theorem build_bRespLow : Config.build.bRespLow = 60 := rfl
@[simp] theorem build_bRespHigh : Config.build.bRespHigh = 100 := rfl
@[simp] theorem build_bDataStart : Config.build.bDataStart = 100 := rfl
@[simp] theorem build_bBitSync : Config.build.bBitSync = 80 := rfl
@[simp] theorem build_bBitCap : Config.build.bBitCap = 100 := rfl
@[simp] theorem build_tThresh : Config.build.tThresh = 48 := rfl
@[simp] theorem build_nBits : Config.build.nBits = 40 := rfl

/-! ### The shift -/

/-- The shifted register as a number (R103). -/
theorem shifted_toNat (f : Frame) (b : Bool) :
    (f.extractLsb 38 0 ++ BitVec.ofBool b : Frame).toNat = (2 * f.toNat + b.toNat) % 2 ^ 40 := by
  have hf := f.isLt
  refine (BitVec.toNat_append (f.extractLsb 38 0) (BitVec.ofBool b)).trans ?_
  rw [BitVec.extractLsb_toNat, ← Nat.shiftLeft_add_eq_or_of_lt (by cases b <;> decide), Nat.shiftLeft_eq]
  cases b <;> simp <;> omega

/-- The shifted register bit by bit (R103). -/
theorem shifted_getLsbD (f : Frame) (b : Bool) (j : Nat) :
    (f.extractLsb 38 0 ++ BitVec.ofBool b : Frame).getLsbD j =
      if j = 0 then b else decide (j < 40) && f.getLsbD (j - 1) := by
  rw [BitVec.getLsbD_append]
  cases j with
  | zero => simp
  | succ j =>
    by_cases h : j < 39
    · simp [BitVec.extractLsb, h, show j + 1 < 40 by omega]
    · simp [BitVec.extractLsb, h, show ¬j + 1 < 40 by omega]

/-! ### The waits -/

/-- `WaitLevel` has exactly three outcomes (R91). -/
theorem waitLevel_cases (target : Level) (bound : Nat) (s : State) :
    (waitLevel target bound s = .timedOut ∧ bound ≤ (elapsed s).toNat) ∨
    (waitLevel target bound s = .reached (elapsed s) ∧ (elapsed s).toNat < bound ∧ lineSample s = target) ∨
    (waitLevel target bound s = .pending ∧ (elapsed s).toNat < bound ∧ lineSample s ≠ target) := by
  unfold waitLevel
  split
  · exact .inl ⟨rfl, ‹_›⟩
  · split
    · exact .inr (.inl ⟨rfl, by omega, ‹_›⟩)
    · exact .inr (.inr ⟨rfl, by omega, ‹_›⟩)

theorem waitLevel_timedOut {target : Level} {bound : Nat} {s : State} (h : bound ≤ (elapsed s).toNat) :
    waitLevel target bound s = .timedOut := by simp [waitLevel, h]

theorem waitLevel_reached {target : Level} {bound : Nat} {s : State} (h : (elapsed s).toNat < bound)
    (hl : lineSample s = target) : waitLevel target bound s = .reached (elapsed s) := by
  simp [waitLevel, Nat.not_le.mpr h, hl]

theorem waitLevel_pending {target : Level} {bound : Nat} {s : State} (h : (elapsed s).toNat < bound)
    (hl : lineSample s ≠ target) : waitLevel target bound s = .pending := by
  simp [waitLevel, Nat.not_le.mpr h, hl]

/-- What a wait phase that only advances can do (R93 to R95, R100). -/
theorem waitPhase_cases (own : Phase) (target : Level) (bound : Nat) (next : Phase) (s : State) :
    (waitPhase own target bound next s = raise (.timeout own) s ∧ bound ≤ (elapsed s).toNat) ∨
    (waitPhase own target bound next s = enter next s ∧ (elapsed s).toNat < bound ∧ lineSample s = target) ∨
    (waitPhase own target bound next s = s ∧ (elapsed s).toNat < bound ∧ lineSample s ≠ target) := by
  unfold waitPhase
  obtain ⟨h, hb⟩ | ⟨h, hb, hl⟩ | ⟨h, hb, hl⟩ := waitLevel_cases target bound s
  · exact .inl ⟨by rw [h], hb⟩
  · exact .inr (.inl ⟨by rw [h], hb, hl⟩)
  · exact .inr (.inr ⟨by rw [h], hb, hl⟩)

/-- What `BIT_MEASURE` does with the outcome of its wait (R101). -/
def measured (s : State) : State :=
  match waitLevel .low 100 s with
  | .timedOut => raise (.timeout .bitMeasure) s
  | .reached d => takePulse d s
  | .pending => s

theorem execBitMeasure_eq (s : State) : execBitMeasure s = .next (measured s) := rfl

theorem measured_cases (s : State) :
    (measured s = raise (.timeout .bitMeasure) s ∧ 100 ≤ (elapsed s).toNat) ∨
    (measured s = takePulse (elapsed s) s ∧ (elapsed s).toNat < 100 ∧ lineSample s = .low) ∨
    (measured s = s ∧ (elapsed s).toNat < 100 ∧ lineSample s ≠ .low) := by
  unfold measured
  obtain ⟨h, hb⟩ | ⟨h, hb, hl⟩ | ⟨h, hb, hl⟩ := waitLevel_cases .low 100 s
  · exact .inl ⟨by rw [h], hb⟩
  · exact .inr (.inl ⟨by rw [h], hb, hl⟩)
  · exact .inr (.inr ⟨by rw [h], hb, hl⟩)

/-- A taken pulse leaves the loop exactly at the 40th bit (R104). -/
theorem takePulse_cases (d : Duration) (s : State) :
    (s.bitcnt.toNat = 39 ∧ takePulse d s = { shiftIn (classify d) s with phase := .checksum }) ∨
    (s.bitcnt.toNat ≠ 39 ∧ takePulse d s = enter .bitSync (shiftIn (classify d) s)) := by
  unfold takePulse
  split <;> simp_all

/-- A wait phase touches neither the inputs nor the step number. -/
theorem waitPhase_events (own : Phase) (target : Level) (bound : Nat) (next : Phase) (s : State) :
    (waitPhase own target bound next s).events = s.events ∧ (waitPhase own target bound next s).stepNo = s.stepNo := by
  obtain ⟨h, -⟩ | ⟨h, -⟩ | ⟨h, -⟩ := waitPhase_cases own target bound next s <;> rw [h] <;> exact ⟨rfl, rfl⟩

theorem measured_events (s : State) : (measured s).events = s.events ∧ (measured s).stepNo = s.stepNo := by
  obtain ⟨h, -⟩ | ⟨h, -⟩ | ⟨h, -⟩ := measured_cases s <;> rw [h]
  · exact ⟨rfl, rfl⟩
  · obtain ⟨-, h⟩ | ⟨-, h⟩ := takePulse_cases (elapsed s) s <;> rw [h] <;> exact ⟨rfl, rfl⟩
  · exact ⟨rfl, rfl⟩

/-! ### The checksum -/

theorem csumMatches_iff (f : Frame) : csumMatches f = true ↔ csum f = frameByte f 4 := by simp [csumMatches]

/-- A byte of the frame as a number (R23). -/
theorem frameByte_toNat (f : Frame) (i : Fin 5) : (frameByte f i).toNat = f.toNat / 2 ^ (32 - 8 * i.val) % 256 := by
  simp [frameByte, BitVec.extractLsb'_toNat, Nat.shiftRight_eq_div_pow]

/-- A byte of the frame bit by bit (R23). -/
theorem frameByte_getLsbD (f : Frame) (i : Fin 5) (j : Nat) (h : j < 8) :
    (frameByte f i).getLsbD j = f.getLsbD (32 - 8 * i.val + j) := by
  simp [frameByte, h]

end Sys2Proof.Machine
end

