-- ==== Sys2Proof/Laws/Step.lean ====
section
/-! SUPPORT. The step as a plain function on states, what one step can do, and runs of several steps. -/

namespace Sys2Proof.Machine

open Sys2Proof.Safety

/-- What the operation of a step makes of the state, as a plain function: every operation answers a next state. -/
def operate (i : Instr) (s : State) : State :=
  match i with
  | .read => acceptRead s
  | .idle => s
  | .startSignal => if 20000 ≤ (elapsed s).toNat then enter .awaitRespLow s else s
  | .awaitRespLow => waitPhase .awaitRespLow .low 60 .awaitRespHigh s
  | .awaitRespHigh => waitPhase .awaitRespHigh .high 100 .awaitDataStart s
  | .awaitDataStart => waitPhase .awaitDataStart .low 100 .bitSync s
  | .bitSync => waitPhase .bitSync .high 80 .bitMeasure s
  | .bitMeasure => measured s
  | .checksum => if csumMatches s.shreg then { s with status := .ok, phase := .idle } else raise .checksumMismatch s

theorem exec_eq_operate (i : Instr) (s : State) : exec i s = .next (operate i s) := by cases i <;> rfl

/-- The state after a step (R30). -/
def nextState (s : State) : State :=
  consume (if (event s).rst then resetRegisters s else operate (operationOf s.phase (event s).start) s)

theorem step_eq_nextState (s : State) : step s = .next (nextState s) := by
  unfold step react nextState
  split
  · rfl
  · rw [exec_eq_operate, fetch_eq]; rfl

theorem step_next_iff (s t : State) : step s = .next t ↔ nextState s = t := by
  rw [step_eq_nextState]
  exact ⟨fun h => by injection h, fun h => by rw [h]⟩

theorem nextState_reset {s : State} (h : (event s).rst = true) : nextState s = consume (resetRegisters s) := by
  simp [nextState, h]

theorem nextState_run {s : State} (h : (event s).rst = false) :
    nextState s = consume (operate (operationOf s.phase (event s).start) s) := by simp [nextState, h]

/-- A step consumes its sample event and no other input. -/
theorem operate_events (i : Instr) (s : State) : (operate i s).events = s.events ∧ (operate i s).stepNo = s.stepNo := by
  cases i with
  | read => exact ⟨rfl, rfl⟩
  | idle => exact ⟨rfl, rfl⟩
  | startSignal => show (ite _ _ _ : State).events = _ ∧ (ite _ _ _ : State).stepNo = _; split <;> exact ⟨rfl, rfl⟩
  | awaitRespLow => exact waitPhase_events _ _ _ _ s
  | awaitRespHigh => exact waitPhase_events _ _ _ _ s
  | awaitDataStart => exact waitPhase_events _ _ _ _ s
  | bitSync => exact waitPhase_events _ _ _ _ s
  | bitMeasure => exact measured_events s
  | checksum => show (ite _ _ _ : State).events = _ ∧ (ite _ _ _ : State).stepNo = _; split <;> exact ⟨rfl, rfl⟩

@[simp] theorem nextState_events (s : State) : (nextState s).events = s.events.tail := by
  unfold nextState
  split
  · rfl
  · rw [consume_events, (operate_events _ _).1]

@[simp] theorem nextState_stepNo (s : State) : (nextState s).stepNo = s.stepNo + 1 := by
  unfold nextState
  split
  · rfl
  · rw [consume_stepNo, (operate_events _ _).2]

/-! ### What a step depends on -/

/-- The state with the registers of `s` and other inputs. -/
def withInputs (s : State) (es : List SampleEvent) (n : Nat) : State := { s with events := es, stepNo := n }

theorem withInputs_self (s : State) : withInputs s s.events s.stepNo = s := rfl

theorem withInputs_eq_self {s : State} {es : List SampleEvent} {n : Nat} (he : s.events = es) (hn : s.stepNo = n) :
    withInputs s es n = s := by rw [← he, ← hn]; rfl

theorem elapsed_withInputs {s : State} {es : List SampleEvent} {n : Nat} (h : clockNow (withInputs s es n) = clockNow s) :
    elapsed (withInputs s es n) = elapsed s := by
  show clockNow (withInputs s es n) - s.t0 = clockNow s - s.t0
  rw [h]

theorem waitLevel_withInputs {s : State} {es : List SampleEvent} {n : Nat} (target : Level) (bound : Nat)
    (hl : lineSample (withInputs s es n) = lineSample s) (hc : clockNow (withInputs s es n) = clockNow s) :
    waitLevel target bound (withInputs s es n) = waitLevel target bound s := by
  simp only [waitLevel, elapsed_withInputs hc, hl]

theorem enter_withInputs {s : State} {es : List SampleEvent} {n : Nat} (p : Phase)
    (hc : clockNow (withInputs s es n) = clockNow s) :
    enter p (withInputs s es n) = withInputs (enter p s) es n := by
  simp only [enter, hc]; rfl

/-- A wait phase reads of the inputs only the level and the time of its sample event. -/
theorem waitPhase_withInputs {s : State} {es : List SampleEvent} {n : Nat} (own : Phase) (target : Level) (bound : Nat)
    (next : Phase) (hl : lineSample (withInputs s es n) = lineSample s) (hc : clockNow (withInputs s es n) = clockNow s) :
    waitPhase own target bound next (withInputs s es n) = withInputs (waitPhase own target bound next s) es n := by
  unfold waitPhase
  rw [waitLevel_withInputs target bound hl hc]
  cases waitLevel target bound s
  · rfl
  · exact enter_withInputs next hc
  · rfl

/-- An operation reads of the inputs only the level and the time of its sample event. -/
theorem operate_withInputs {s : State} {es : List SampleEvent} {n : Nat} (i : Instr)
    (hl : lineSample (withInputs s es n) = lineSample s) (hc : clockNow (withInputs s es n) = clockNow s) :
    operate i (withInputs s es n) = withInputs (operate i s) es n := by
  cases i with
  | read => show acceptRead _ = _; simp only [acceptRead, hc]; rfl
  | idle => rfl
  | startSignal =>
    simp only [operate, elapsed_withInputs hc]
    split
    · exact enter_withInputs _ hc
    · rfl
  | awaitRespLow => exact waitPhase_withInputs _ _ _ _ hl hc
  | awaitRespHigh => exact waitPhase_withInputs _ _ _ _ hl hc
  | awaitDataStart => exact waitPhase_withInputs _ _ _ _ hl hc
  | bitSync => exact waitPhase_withInputs _ _ _ _ hl hc
  | bitMeasure =>
    simp only [operate, measured, waitLevel_withInputs _ _ hl hc]
    cases waitLevel .low 100 s with
    | timedOut => rfl
    | reached d =>
      show takePulse d (withInputs s es n) = withInputs (takePulse d s) es n
      unfold takePulse
      show ite (s.bitcnt.toNat + 1 = _) _ _ = _
      split
      · rfl
      · show enter .bitSync (withInputs (shiftIn (classify d) s) es n) = _
        exact enter_withInputs _ hc
    | pending => rfl
  | checksum =>
    show ite (csumMatches s.shreg = true) _ _ = withInputs (ite (csumMatches s.shreg = true) _ _) es n
    split <;> rfl

/-- A step is the same for two states with the same registers whose sample events agree on what the phase reads. -/
theorem nextState_withInputs {s : State} {es : List SampleEvent} {n : Nat}
    (hr : (event (withInputs s es n)).rst = (event s).rst)
    (hs : operationOf s.phase (event (withInputs s es n)).start = operationOf s.phase (event s).start)
    (hl : lineSample (withInputs s es n) = lineSample s) (hc : clockNow (withInputs s es n) = clockNow s) :
    nextState (withInputs s es n) = withInputs (nextState s) es.tail (n + 1) := by
  unfold nextState
  rw [hr]
  show consume (ite _ _ (operate (operationOf s.phase _) _)) = _
  rw [hs, operate_withInputs _ hl hc]
  split <;> rfl

/-! ### Runs -/

@[simp] theorem run_zero (s : State) : run 0 s = .next s := rfl

/-- One more step of any machine whose step answers a next state. -/
theorem core_run_succ (M : Host.Core) (k : Nat) (s t : M.State) (h : M.step s = .next t) :
    M.run (k + 1) s = M.run k t := by
  rw [Host.Core.run, h]

theorem run_succ (k : Nat) (s : State) : run (k + 1) s = run k (nextState s) :=
  core_run_succ core k s (nextState s) (step_eq_nextState s)

/-- The state after `k` steps. -/
def after : Nat → State → State
  | 0, s => s
  | k + 1, s => after k (nextState s)

theorem run_eq_after (k : Nat) (s : State) : run k s = .next (after k s) := by
  induction k generalizing s with
  | zero => rfl
  | succ k ih => rw [run_succ, ih, after]

theorem run_next_iff (k : Nat) (s t : State) : run k s = .next t ↔ after k s = t := by
  rw [run_eq_after]
  exact ⟨fun h => by injection h, fun h => by rw [h]⟩

theorem after_add (k l : Nat) (s : State) : after (k + l) s = after l (after k s) := by
  induction k generalizing s with
  | zero => simp [after]
  | succ k ih => rw [Nat.succ_add, after, after, ih]

theorem after_succ (k : Nat) (s : State) : after (k + 1) s = nextState (after k s) := by
  rw [after_add]; rfl

theorem after_events (k : Nat) (s : State) : (after k s).events = s.events.drop k := by
  induction k generalizing s with
  | zero => rfl
  | succ k ih => rw [after, ih, nextState_events]; cases s.events <;> simp

end Sys2Proof.Machine
end

