-- ==== Sys2Proof/Laws/Cases.lean ====
section
/-! SUPPORT. What a step that is no reset can do, said once: every invariant of one step is a case analysis of `StepCase`. -/

namespace Sys2Proof.Machine

/-- The waits that only advance: phase, target level, bound, next phase (R93 to R95, R100). -/
inductive Advance : Phase → Level → Nat → Phase → Prop where
  | respLow : Advance .awaitRespLow .low 60 .awaitRespHigh
  | respHigh : Advance .awaitRespHigh .high 100 .awaitDataStart
  | dataStart : Advance .awaitDataStart .low 100 .bitSync
  | sync : Advance .bitSync .high 80 .bitMeasure

/-- The five waits: phase, target level, bound (R62). -/
inductive Wait : Phase → Level → Nat → Prop where
  | advance {p q : Phase} {l : Level} {b : Nat} (h : Advance p l b q) : Wait p l b
  | measure : Wait .bitMeasure .low 100

/-- The phases of the waits. -/
theorem Wait.phases {p : Phase} {l : Level} {b : Nat} (h : Wait p l b) :
    p = .awaitRespLow ∨ p = .awaitRespHigh ∨ p = .awaitDataStart ∨ p = .bitSync ∨ p = .bitMeasure := by
  cases h with
  | advance h => cases h <;> simp
  | measure => simp

/-- The phases of the waits that only advance. -/
theorem Advance.phases {p q : Phase} {l : Level} {b : Nat} (h : Advance p l b q) :
    (p = .awaitRespLow ∧ q = .awaitRespHigh) ∨ (p = .awaitRespHigh ∧ q = .awaitDataStart) ∨
    (p = .awaitDataStart ∧ q = .bitSync) ∨ (p = .bitSync ∧ q = .bitMeasure) := by
  cases h <;> simp

/-- The state before its sample event is consumed, at a step that is no reset. -/
inductive StepCase (s : State) : State → Prop where
  | idle (hp : s.phase = .idle) (hs : (event s).start = false) : StepCase s s
  | accept (hp : s.phase = .idle) (hs : (event s).start = true) : StepCase s (acceptRead s)
  | hold (hp : s.phase = .startSignal) (he : (elapsed s).toNat < 20000) : StepCase s s
  | release (hp : s.phase = .startSignal) (he : 20000 ≤ (elapsed s).toNat) : StepCase s (enter .awaitRespLow s)
  | pending {l : Level} {b : Nat} (hw : Wait s.phase l b) (he : (elapsed s).toNat < b) (hl : lineSample s ≠ l) : StepCase s s
  | timeout {l : Level} {b : Nat} (hw : Wait s.phase l b) (he : b ≤ (elapsed s).toNat) :
      StepCase s (raise (.timeout s.phase) s)
  | advance {l : Level} {b : Nat} {q : Phase} (ha : Advance s.phase l b q) (he : (elapsed s).toNat < b)
      (hl : lineSample s = l) : StepCase s (enter q s)
  | bit (hp : s.phase = .bitMeasure) (hb : s.bitcnt.toNat ≠ 39) (he : (elapsed s).toNat < 100) (hl : lineSample s = .low) :
      StepCase s (enter .bitSync (shiftIn (classify (elapsed s)) s))
  | lastBit (hp : s.phase = .bitMeasure) (hb : s.bitcnt.toNat = 39) (he : (elapsed s).toNat < 100)
      (hl : lineSample s = .low) : StepCase s { shiftIn (classify (elapsed s)) s with phase := .checksum }
  | ok (hp : s.phase = .checksum) (hc : csum s.shreg = frameByte s.shreg 4) :
      StepCase s { s with status := .ok, phase := .idle }
  | mismatch (hp : s.phase = .checksum) (hc : csum s.shreg ≠ frameByte s.shreg 4) :
      StepCase s (raise .checksumMismatch s)

theorem stepCase_of_advance {s : State} {l : Level} {b : Nat} {q : Phase} (ha : Advance s.phase l b q) :
    StepCase s (waitPhase s.phase l b q s) := by
  obtain ⟨h, he⟩ | ⟨h, he, hl⟩ | ⟨h, he, hl⟩ := waitPhase_cases s.phase l b q s <;> rw [h]
  · exact .timeout (.advance ha) he
  · exact .advance ha he hl
  · exact .pending (.advance ha) he hl

/-- The operation of a step does one of these things. -/
theorem operate_cases (s : State) : StepCase s (operate (operationOf s.phase (event s).start) s) := by
  cases hp : s.phase with
  | idle =>
    cases hs : (event s).start with
    | false => exact .idle hp hs
    | true => exact .accept hp hs
  | startSignal =>
    simp only [operationOf, operate]
    split
    · exact .release hp ‹_›
    · exact .hold hp (by omega)
  | awaitRespLow => have := stepCase_of_advance (s := s) (hp ▸ Advance.respLow); rwa [hp] at this
  | awaitRespHigh => have := stepCase_of_advance (s := s) (hp ▸ Advance.respHigh); rwa [hp] at this
  | awaitDataStart => have := stepCase_of_advance (s := s) (hp ▸ Advance.dataStart); rwa [hp] at this
  | bitSync => have := stepCase_of_advance (s := s) (hp ▸ Advance.sync); rwa [hp] at this
  | bitMeasure =>
    simp only [operationOf, operate]
    have hw : Wait s.phase .low 100 := hp ▸ .measure
    obtain ⟨h, he⟩ | ⟨h, he, hl⟩ | ⟨h, he, hl⟩ := measured_cases s <;> rw [h]
    · have := StepCase.timeout hw he
      rwa [hp] at this
    · obtain ⟨hb, h⟩ | ⟨hb, h⟩ := takePulse_cases (elapsed s) s <;> rw [h]
      · exact .lastBit hp hb he hl
      · exact .bit hp hb he hl
    · exact .pending hw he hl
  | checksum =>
    simp only [operationOf, operate]
    split
    · exact .ok hp ((csumMatches_iff _).mp ‹_›)
    · exact .mismatch hp fun h => absurd ((csumMatches_iff _).mpr h) ‹_›

/-- The step inversion: a step that answers `t` is a reset, or does one of the cases, and then consumes its event. -/
theorem step_cases {s t : State} (h : step s = .next t) :
    ((event s).rst = true ∧ t = consume (resetRegisters s)) ∨ ((event s).rst = false ∧ ∃ u, StepCase s u ∧ t = consume u) := by
  rw [step_next_iff] at h
  subst h
  cases hr : (event s).rst with
  | true => exact .inl ⟨rfl, nextState_reset hr⟩
  | false => exact .inr ⟨rfl, _, operate_cases s, nextState_run hr⟩

/-- Each case with its guard is what the step does: the cases are the step. -/
theorem nextState_of_case {s u : State} (hr : (event s).rst = false) (h : StepCase s u) : nextState s = consume u := by
  rw [nextState_run hr]
  congr 1
  have wait : ∀ {l b q}, Advance s.phase l b q → operate (operationOf s.phase (event s).start) s = waitPhase s.phase l b q s := by
    intro l b q ha
    generalize hp : s.phase = p at ha
    cases ha <;> rfl
  cases h with
  | idle hp hs => rw [hp, hs]; rfl
  | accept hp hs => rw [hp, hs]; rfl
  | hold hp he => rw [hp]; exact if_neg (by omega)
  | release hp he => rw [hp]; exact if_pos he
  | pending hw he hl =>
    generalize hp : s.phase = p at hw
    cases hw with
    | advance ha => subst hp; rw [wait ha, waitPhase, waitLevel_pending he hl]
    | measure => show measured s = s; rw [measured, waitLevel_pending he hl]
  | timeout hw he =>
    generalize hp : s.phase = p at hw
    cases hw with
    | advance ha => subst hp; rw [wait ha, waitPhase, waitLevel_timedOut he]
    | measure => show measured s = _; rw [measured, waitLevel_timedOut he]
  | advance ha he hl => rw [wait ha, waitPhase, waitLevel_reached he hl]
  | bit hp hb he hl =>
    rw [hp]
    show measured s = _
    rw [measured, waitLevel_reached he hl]
    exact if_neg (by rw [build_nBits]; omega)
  | lastBit hp hb he hl =>
    rw [hp]
    show measured s = _
    rw [measured, waitLevel_reached he hl]
    exact if_pos (by rw [build_nBits]; omega)
  | ok hp hc => rw [hp]; exact if_pos ((csumMatches_iff _).mpr hc)
  | mismatch hp hc => rw [hp]; exact if_neg fun h => hc ((csumMatches_iff _).mp h)

end Sys2Proof.Machine
end

