-- ==== Sys2Proof/Laws/PerInstr.lean ====
section
/-! SUPPORT. Statements about every operation as syntax, one lemma per constructor. -/

namespace Sys2Proof.Laws.Encoding

/-- The operation is well formed, and is read back from its words: the operation word of a step and the word of the opcode
table. -/
def Statement (i : Instr) : Prop :=
  i.wellFormed = true ∧ decode (encode i) = i ∧ decodeWord (encodeTableWord i).1 (encodeTableWord i).2 = .ok i

theorem read : Statement .read := ⟨rfl, rfl, rfl⟩
theorem idle : Statement .idle := ⟨rfl, rfl, rfl⟩
theorem startSignal : Statement .startSignal := ⟨rfl, rfl, rfl⟩
theorem awaitRespLow : Statement .awaitRespLow := ⟨rfl, rfl, rfl⟩
theorem awaitRespHigh : Statement .awaitRespHigh := ⟨rfl, rfl, rfl⟩
theorem awaitDataStart : Statement .awaitDataStart := ⟨rfl, rfl, rfl⟩
theorem bitSync : Statement .bitSync := ⟨rfl, rfl, rfl⟩
theorem bitMeasure : Statement .bitMeasure := ⟨rfl, rfl, rfl⟩
theorem checksum : Statement .checksum := ⟨rfl, rfl, rfl⟩

end Sys2Proof.Laws.Encoding
end

