-- ==== Sys2Proof/Laws/Runs.lean ====
section
/-! SUPPORT. Runs over a listed stretch of inputs: staying in a phase, and one whole stay of each kind. -/

namespace Sys2Proof.Machine

open Sys2Proof.Safety

/-- One step over a listed event that leaves the registers as they are. -/
theorem after_case {s u : State} {e : SampleEvent} {es : List SampleEvent} (he : s.events = e :: es) (hr : e.rst = false)
    (h : StepCase s u) : nextState s = withInputs u es (s.stepNo + 1) := by
  have hn := nextState_of_case (by rw [event_of_events s he]; exact hr) h
  have h1 : (nextState s).events = es := by rw [nextState_events, he]; rfl
  have h2 := nextState_stepNo s
  rw [hn] at h1 h2 ⊢
  exact (withInputs_eq_self h1 h2).symm

/-- Staying: events each of which leaves the registers as they are. -/
theorem after_stay {s : State} {es rest : List SampleEvent} (h : s.events = es ++ rest)
    (hs : ∀ e ∈ es, e.rst = false ∧ ∀ es' n, event (withInputs s es' n) = e →
      StepCase (withInputs s es' n) (withInputs s es' n)) :
    after es.length s = withInputs s rest (s.stepNo + es.length) := by
  induction es generalizing s with
  | nil => exact (withInputs_eq_self h rfl).symm
  | cons e es ih =>
    have hstay := hs e (List.mem_cons_self ..)
    have he : s.events = e :: (es ++ rest) := h
    have h1 : nextState s = withInputs s (es ++ rest) (s.stepNo + 1) :=
      after_case he hstay.1 (hstay.2 s.events s.stepNo (event_of_events s he))
    show after es.length (nextState s) = _
    rw [h1, ih (s := withInputs s (es ++ rest) (s.stepNo + 1)) rfl fun e' he' => hs e' (List.mem_cons_of_mem _ he')]
    show withInputs s rest (s.stepNo + 1 + es.length) = withInputs s rest (s.stepNo + (es.length + 1))
    congr 1
    omega

/-- A stretch that stays, then one step of a given case. -/
theorem after_stay_case {s u : State} {w : Stay} {rest : List SampleEvent} (h : s.events = w.tape ++ rest)
    (hs : ∀ e ∈ w.pending, e.rst = false ∧ ∀ es' n, event (withInputs s es' n) = e →
      StepCase (withInputs s es' n) (withInputs s es' n))
    (hr : w.last.rst = false)
    (hc : ∀ es' n, event (withInputs s es' n) = w.last → StepCase (withInputs s es' n) (withInputs u es' n)) :
    after w.tape.length s = withInputs u rest (s.stepNo + w.tape.length) := by
  have hl : w.tape.length = w.pending.length + 1 := by simp [Stay.tape]
  have h' : s.events = w.pending ++ (w.last :: rest) := by simpa [Stay.tape] using h
  rw [hl, after_succ, after_stay h' hs,
    after_case (s := withInputs s (w.last :: rest) (s.stepNo + w.pending.length)) rfl hr (hc _ _ rfl)]
  rfl

/-- The pending samples of a wait stay. -/
theorem stays_of_waits {s : State} {w : Stay} {l : Level} {b : Nat} (hw : Wait s.phase l b)
    (h : w.waits l b s.t0) :
    ∀ e ∈ w.pending, e.rst = false ∧ ∀ es' n, event (withInputs s es' n) = e →
      StepCase (withInputs s es' n) (withInputs s es' n) := by
  intro e he
  obtain ⟨hr, hl, hb⟩ := h e he
  refine ⟨hr, fun es' n hev => .pending hw ?_ ?_⟩
  · show ((event (withInputs s es' n)).now - s.t0).toNat < b
    rwa [hev]
  · show (event (withInputs s es' n)).lineIn ≠ l
    rwa [hev]

/-- One whole wait that reaches its level (R93 to R95, R100). -/
theorem after_reaches {s : State} {w : Stay} {rest : List SampleEvent} {l : Level} {b : Nat} {q : Phase}
    (ha : Advance s.phase l b q) (h : s.events = w.tape ++ rest) (hw : w.reaches l b s.t0) :
    after w.tape.length s = withInputs { s with t0 := w.last.now, phase := q } rest (s.stepNo + w.tape.length) := by
  obtain ⟨hp, hr, hl, hb⟩ := hw
  refine after_stay_case h (stays_of_waits (.advance ha) hp) hr fun es' n hev => ?_
  have := StepCase.advance (s := withInputs s es' n) ha
    (by show ((event (withInputs s es' n)).now - s.t0).toNat < b; rwa [hev])
    (by show (event (withInputs s es' n)).lineIn = l; rwa [hev])
  rw [enter, clockNow, hev] at this
  exact this

/-- The whole start signal (R83, R84). -/
theorem after_holdsStart {s : State} {w : Stay} {rest : List SampleEvent} (hp : s.phase = .startSignal)
    (h : s.events = w.tape ++ rest) (hw : w.holdsStart s.t0) :
    after w.tape.length s =
      withInputs { s with t0 := w.last.now, phase := .awaitRespLow } rest (s.stepNo + w.tape.length) := by
  obtain ⟨hh, hr, hb⟩ := hw
  refine after_stay_case h (fun e he => ⟨(hh e he).1, fun es' n hev => .hold hp ?_⟩) hr fun es' n hev => ?_
  · show ((event (withInputs s es' n)).now - s.t0).toNat < 20000
    rw [hev]; exact (hh e he).2
  · have := StepCase.release (s := withInputs s es' n) hp
      (by show 20000 ≤ ((event (withInputs s es' n)).now - s.t0).toNat; rwa [hev])
    rw [enter, clockNow, hev] at this
    exact this

end Sys2Proof.Machine
end

