-- ==== Sys2Proof/Tests/Slice0.lean ====
section
/-! SUPPORT. Tests: the words of the encodings, single steps of spec/95_test_vectors.md (the vector's name stands in the test's
name), ill-formed terms that the checks refuse, and for every statement with hypotheses a witness that meets them together. -/

namespace Sys2Proof.Tests

open Sys2Proof.Machine Sys2Proof.Safety

/-! ### Small states -/

/-- A sample event with neither reset nor request. -/
def sample (l : Level) (now : Instant) : SampleEvent := ⟨false, false, l, now⟩

/-- A sample event that asks for a read. -/
def request (l : Level) (now : Instant) : SampleEvent := ⟨false, true, l, now⟩

/-- A state in the middle of a read that started at `t0` and has taken no bit. -/
def inPhase (p : Phase) (t0 : Instant) (es : List SampleEvent) : State := ⟨p, 0, 0, t0, .none, 0, es, 0⟩

/-- The same with bits taken. -/
def inLoop (p : Phase) (f : Frame) (n : BitVec 6) (t0 : Instant) (es : List SampleEvent) : State :=
  ⟨p, f, n, t0, .none, 0, es, 0⟩

/-- One step from `s` gives the six registers and leaves `es` listed. -/
def gives (s : State) (p : Phase) (f : Frame) (n : BitVec 6) (t0 : Instant) (st : Status) (fp : BitVec 3)
    (es : List SampleEvent := []) : Bool :=
  match step s with
  | .next t => decide (t = ⟨p, f, n, t0, st, fp, es, s.stepNo + 1⟩)
  | .fault _ => false
  | .refused _ => false

/-- An accepted read whose result was `OK`, with the frame of program P1. -/
def okState (es : List SampleEvent) : State := ⟨.idle, 0x370018004F, 40, 23744, .ok, 0, es, 0⟩

/-! ### Well-formedness: an ill-formed term for each check (R9), refused; an operation has no ill-formed term (R72) -/

theorem test_build_wellFormed : Config.build.wellFormed = true := by decide

theorem test_threshold_at_cap_refused : ({ Config.build with tThresh := 100 } : Config.Params).wellFormed = false := by decide

theorem test_bound_of_two_pow_width_refused :
    ({ Config.build with bRespLow := 4294967296 } : Config.Params).wellFormed = false := by decide

theorem test_bits_not_eight_a_byte_refused : ({ Config.build with nBits := 39 } : Config.Params).wellFormed = false := by decide

theorem test_count_too_narrow_refused : ({ Config.build with bitcntW := 5 } : Config.Params).wellFormed = false := by decide

theorem test_every_operation_wellFormed (i : Instr) : i.wellFormed = true := by cases i <;> decide

/-! ### Decoding: words written out from R61 and R62 -/

theorem test_decode_read : decode ⟨0b000, true⟩ = .read ∧ decodeTableWord 1 0b1 = some .read := by decide

theorem test_decode_idle : decode ⟨0b000, false⟩ = .idle ∧ decodeTableWord 3 0b000 = some .idle := by decide

theorem test_decode_startSignal : decode ⟨0b001, false⟩ = .startSignal ∧ decodeTableWord 3 0b001 = some .startSignal := by decide

theorem test_decode_awaitRespLow : decode ⟨0b010, true⟩ = .awaitRespLow ∧ decodeTableWord 3 0b010 = some .awaitRespLow := by
  decide

theorem test_decode_awaitRespHigh : decode ⟨0b011, false⟩ = .awaitRespHigh ∧ decodeTableWord 8 0b011 = some .awaitRespHigh := by
  decide

theorem test_decode_awaitDataStart :
    decode ⟨0b100, true⟩ = .awaitDataStart ∧ decodeTableWord 8 0b100 = some .awaitDataStart := by decide

theorem test_decode_bitSync : decode ⟨0b101, false⟩ = .bitSync ∧ decodeTableWord 8 0b101 = some .bitSync := by decide

theorem test_decode_bitMeasure : decode ⟨0b110, true⟩ = .bitMeasure ∧ decodeTableWord 8 0b110 = some .bitMeasure := by decide

theorem test_decode_checksum : decode ⟨0b111, false⟩ = .checksum ∧ decodeTableWord 8 0b111 = some .checksum := by decide

theorem test_decode_rejects_by_name :
    decodeWord .cmd 0 = .error .noRequest ∧ decodeWord .cmd 2 = .error .widerThanCommand ∧
      decodeWord .phase 8 = .error .widerThanPhase := ⟨rfl, rfl, rfl⟩

/-! ### Single steps: 95_test_vectors.md section 2 -/

theorem test_VA2_idle_holds_result : gives (okState [sample .low 999999]) .idle 0x370018004F 40 23744 .ok 0 = true := by decide

theorem test_VA5_read_clears :
    gives ⟨.idle, 0x370018004E, 40, 23744, .checksumMismatch, 0, [request .high 4294967295], 0⟩
      .startSignal 0 0 4294967295 .none 0 = true := by decide

theorem test_VA4_read_withdraws_timeout :
    gives ⟨.idle, 0, 0, 20000, .timeout, 2, [request .low 1000], 0⟩ .startSignal 0 0 1000 .none 0 = true := by decide

theorem test_VA12_hold_across_wrap :
    gives (inPhase .startSignal 4294963200 [sample .high 15903]) .startSignal 0 0 4294963200 .none 0 = true := by decide

theorem test_VA11_release_across_wrap :
    gives (inPhase .startSignal 4294963200 [sample .high 15904]) .awaitRespLow 0 0 15904 .none 0 = true := by decide

theorem test_VB3_respLow_last_chance :
    gives (inPhase .awaitRespLow 5000 [sample .low 5059]) .awaitRespHigh 0 0 5059 .none 0 = true := by decide

theorem test_VB4_respLow_at_bound :
    gives (inPhase .awaitRespLow 5000 [sample .low 5060]) .idle 0 0 5000 .timeout 2 = true := by decide

theorem test_VB9_respHigh_at_bound :
    gives (inPhase .awaitRespHigh 5000 [sample .high 5100]) .idle 0 0 5000 .timeout 3 = true := by decide

theorem test_VB17_respHigh_across_wrap :
    gives (inPhase .awaitRespHigh 4294967294 [sample .high 5]) .awaitDataStart 0 0 5 .none 0 = true := by decide

theorem test_VB13_dataStart_last_chance :
    gives (inPhase .awaitDataStart 5000 [sample .low 5099]) .bitSync 0 0 5099 .none 0 = true := by decide

theorem test_VB14_dataStart_at_bound :
    gives (inPhase .awaitDataStart 5000 [sample .low 5100]) .idle 0 0 5000 .timeout 4 = true := by decide

theorem test_VC2_sync_last_chance :
    gives (inLoop .bitSync 0x1B 7 7000 [sample .high 7079]) .bitMeasure 0x1B 7 7079 .none 0 = true := by decide

theorem test_VC3_sync_at_bound :
    gives (inLoop .bitSync 0x1B 7 7000 [sample .high 7080]) .idle 0x1B 7 7000 .timeout 5 = true := by decide

theorem test_VC8_measure_takes_one :
    gives (inLoop .bitMeasure 5 3 7000 [sample .low 7049]) .bitSync 0xB 4 7049 .none 0 = true := by decide

theorem test_VC14_measure_takes_last :
    gives (inLoop .bitMeasure 0x4000000000 39 7000 [sample .low 7070]) .checksum 0x8000000001 40 7000 .none 0 = true := by decide

theorem test_VD5_checksum_wraps :
    gives (inLoop .checksum 0xFFFFFFFFFC 40 7000 [sample .high 8000]) .idle 0xFFFFFFFFFC 40 7000 .ok 0 = true := by decide

theorem test_VD2_checksum_mismatch :
    gives (inLoop .checksum 0x370018004E 40 7000 [sample .high 8000]) .idle 0x370018004E 40 7000 .checksumMismatch 0 = true := by
  decide

theorem test_VE3_reset_beats_timeout :
    gives (inLoop .bitMeasure 5 3 7000 [⟨true, false, .high, 7100⟩]) .idle 0 0 0 .none 0 = true := by decide

theorem test_VE2_reset_beats_start : gives ⟨.idle, 0, 0, 0, .none, 0, [⟨true, true, .high, 5⟩], 0⟩ .idle 0 0 0 .none 0 = true := by
  decide

/-! ### Functions: 95_test_vectors.md section 3 -/

theorem test_VF4_elapsed_across_wrap : elapsed (inPhase .awaitRespLow 4294967294 [sample .high 5]) = 7 := by decide

theorem test_VG6_VG7_classify : classify 48 = false ∧ classify 49 = true := by decide

theorem test_VH5_VH10_csum : csum 0xFFFFFFFFFC = 0xFC ∧ csum 0x640032009F = 0x96 := by decide

theorem test_VI3_frame_bytes :
    frameByte 0x010204080F 0 = 1 ∧ frameByte 0x010204080F 1 = 2 ∧ frameByte 0x010204080F 2 = 4 ∧
      frameByte 0x010204080F 3 = 8 ∧ frameByte 0x010204080F 4 = 15 := by decide

theorem test_VO2_outputs_ok :
    outputs (okState []) = ⟨false, false, false, false, true, 1, true, 55, 24, 0, 0, 0, 0⟩ := by decide

theorem test_VO3_outputs_timeout :
    outputs ⟨.idle, 0x370, 12, 0, .timeout, 6, [], 0⟩ = ⟨false, false, false, false, true, 2, false, 0, 0, 6, 0, 0, 0⟩ := by decide

theorem test_VO4_outputs_mismatch :
    outputs ⟨.idle, 0x370018004E, 40, 0, .checksumMismatch, 0, [], 0⟩ =
      ⟨false, false, false, false, true, 3, false, 0, 0, 0, 0x370018004E, 0x4E, 0x4F⟩ := by decide

theorem test_VO7_outputs_measuring :
    outputs (inLoop .bitMeasure 0x370 12 0 []) = ⟨false, true, false, true, false, 0, false, 0, 0, 0, 0, 0, 0⟩ := by decide

/-! ### Witnesses: encodings, step, reset -/

theorem witness_WordsDecodeAsTabled : (0b001 : BitVec 3) ≠ 0 := by decide

theorem witness_DecodeInvertsEncode : Instr.bitMeasure.wellFormed = true := by decide

theorem witness_StepRunsDecodedOperation :
    ∃ s t i, (event s).rst = false ∧ decode ⟨s.phase.code, (event s).start⟩ = i ∧ i.wellFormed = true ∧
      exec i s = .next t ∧ i = .bitSync :=
  ⟨inPhase .bitSync 7000 [sample .high 7050], _, .bitSync, by decide, by decide, by decide, rfl, rfl⟩

theorem witness_PlacedWordRunsNext :
    decodeTableWord 1 1 = some .read ∧ decodeTableWord 3 7 = some .checksum ∧ decodeTableWord 8 0 = some .idle := by decide

theorem witness_ResetStateValues :
    ∃ s : State, s.phase = .idle ∧ (event s).rst = false ∧ (event s).start = false :=
  ⟨okState [sample .low 5], by decide, by decide, by decide⟩

theorem witness_ResetWinsOverEverything : ∃ s : State, (event s).rst = true ∧ s.phase = .checksum ∧ (event s).start = true :=
  ⟨inLoop .checksum 0 40 0 [⟨true, true, .high, 9⟩], by decide, by decide, by decide⟩

theorem witness_ReadWritesAllRegisters :
    ∃ s : State, s.phase = .idle ∧ (event s).rst = false ∧ (event s).start = true :=
  ⟨okState [request .low 5], by decide, by decide, by decide⟩

theorem witness_IdleWritesNothing : ∃ s : State, s.phase = .idle ∧ (event s).rst = false ∧ (event s).start = false :=
  witness_ResetStateValues

theorem witness_StartIgnoredWhileBusy : (inPhase .startSignal 0 []).phase ≠ .idle := by decide

theorem witness_StartSignalHolds :
    ∃ s : State, ((event s).now - s.t0).toNat < 20000 ∧ ((event s).now - s.t0).toNat = 19999 :=
  ⟨inPhase .startSignal 1000 [sample .high 20999], by decide, by decide⟩

theorem witness_StartSignalReleases :
    ∃ s : State, 20000 ≤ ((event s).now - s.t0).toNat ∧ ((event s).now - s.t0).toNat = 20000 :=
  ⟨inPhase .startSignal 1000 [sample .low 21000], by decide, by decide⟩

/-! ### Witnesses: the waits -/

theorem witness_ElapsedIsModularDifference :
    ∃ (s : State) (n : Nat), n < 2 ^ 32 ∧ (event s).now = s.t0 + BitVec.ofNat 32 n ∧ (event s).now < s.t0 :=
  ⟨inPhase .startSignal 4294967294 [sample .high 5], 7, by decide, by decide, by decide⟩

/-- The three clauses, each at the edge of its range. -/
theorem witness_WaitLevelOutcomes :
    (∃ s : State, 60 ≤ ((event s).now - s.t0).toNat ∧ (event s).lineIn = .low) ∧
    (∃ s : State, ((event s).now - s.t0).toNat < 60 ∧ (event s).lineIn = .low) ∧
    (∃ s : State, ((event s).now - s.t0).toNat < 60 ∧ (event s).lineIn ≠ .low) :=
  ⟨⟨inPhase .awaitRespLow 5000 [sample .low 5060], by decide, by decide⟩,
    ⟨inPhase .awaitRespLow 5000 [sample .low 5059], by decide, by decide⟩,
    ⟨inPhase .awaitRespLow 5000 [sample .high 5059], by decide, by decide⟩⟩

/-- The three clauses of a wait with the bound `b`, the target `l` and the other level `m`, at the edges of their ranges. -/
def WaitClauses (b : Nat) (l m : Level) : Prop :=
  (∃ s : State, b ≤ ((event s).now - s.t0).toNat) ∧
  (∃ s : State, ((event s).now - s.t0).toNat < b ∧ (event s).lineIn = l) ∧
  (∃ s : State, ((event s).now - s.t0).toNat < b ∧ (event s).lineIn = m)

theorem witness_AwaitRespLowOutcomes : WaitClauses 60 .low .high :=
  ⟨⟨inPhase .awaitRespLow 5000 [sample .low 5060], by decide⟩,
    ⟨inPhase .awaitRespLow 5000 [sample .low 5059], by decide, by decide⟩,
    ⟨inPhase .awaitRespLow 5000 [sample .high 5059], by decide, by decide⟩⟩

theorem witness_AwaitRespHighOutcomes : WaitClauses 100 .high .low :=
  ⟨⟨inPhase .awaitRespHigh 5000 [sample .high 5100], by decide⟩,
    ⟨inPhase .awaitRespHigh 5000 [sample .high 5099], by decide, by decide⟩,
    ⟨inPhase .awaitRespHigh 5000 [sample .low 5099], by decide, by decide⟩⟩

theorem witness_AwaitDataStartOutcomes : WaitClauses 100 .low .high :=
  ⟨⟨inPhase .awaitDataStart 5000 [sample .low 5100], by decide⟩,
    ⟨inPhase .awaitDataStart 5000 [sample .low 5099], by decide, by decide⟩,
    ⟨inPhase .awaitDataStart 5000 [sample .high 5099], by decide, by decide⟩⟩

theorem witness_BitSyncOutcomes : WaitClauses 80 .high .low :=
  ⟨⟨inPhase .bitSync 5000 [sample .high 5080], by decide⟩,
    ⟨inPhase .bitSync 5000 [sample .high 5079], by decide, by decide⟩,
    ⟨inPhase .bitSync 5000 [sample .low 5079], by decide, by decide⟩⟩

/-- A stay that waits at the last microsecond before the bound `b` and ends at the bound on the target level `l`. -/
def lateStay (l m : Level) (b : Nat) : Stay :=
  ⟨[sample m 0, sample m (BitVec.ofNat 32 (b - 1))], sample l (BitVec.ofNat 32 b)⟩

theorem late_timesOut (l m : Level) (b : Nat) (hlm : m ≠ l) (h1 : 1 ≤ b) (h2 : b ≤ 100) :
    (lateStay l m b).timesOut l b 0 := by
  refine ⟨?_, rfl, ?_⟩
  · intro e he
    rcases List.mem_cons.mp he with rfl | he
    · exact ⟨rfl, hlm, by simp [sample]; omega⟩
    · rw [List.mem_singleton.mp he]
      exact ⟨rfl, hlm, by simp [sample]; omega⟩
  · simp [lateStay, sample]; omega

theorem witness_TimeoutIsAttributedToItsPhase (p : Phase) (target : Level) (bound : Nat)
    (h : (p, target, bound) ∈
      [(Phase.awaitRespLow, Level.low, 60), (Phase.awaitRespHigh, Level.high, 100), (Phase.awaitDataStart, Level.low, 100),
        (Phase.bitSync, Level.high, 80), (Phase.bitMeasure, Level.low, 100)]) :
    ∃ (s : State) (w : Stay) (rest : List SampleEvent), s.phase = p ∧ s.events = w.tape ++ rest ∧
      w.timesOut target bound s.t0 ∧ w.last.lineIn = target := by
  have key : ∀ (m : Level), m ≠ target → 1 ≤ bound → bound ≤ 100 → _ := fun m hm h1 h2 =>
    (⟨inPhase p 0 ((lateStay target m bound).tape ++ []), lateStay target m bound, [], rfl, rfl,
      late_timesOut target m bound hm h1 h2, rfl⟩ :
      ∃ (s : State) (w : Stay) (rest : List SampleEvent), s.phase = p ∧ s.events = w.tape ++ rest ∧
        w.timesOut target bound s.t0 ∧ w.last.lineIn = target)
  simp only [List.mem_cons, Prod.mk.injEq, List.not_mem_nil, or_false] at h
  obtain ⟨-, rfl, rfl⟩ | ⟨-, rfl, rfl⟩ | ⟨-, rfl, rfl⟩ | ⟨-, rfl, rfl⟩ | ⟨-, rfl, rfl⟩ := h
  · exact key .high (by decide) (by decide) (by decide)
  · exact key .low (by decide) (by decide) (by decide)
  · exact key .high (by decide) (by decide) (by decide)
  · exact key .low (by decide) (by decide) (by decide)
  · exact key .high (by decide) (by decide) (by decide)

/-- Both clauses one microsecond below their bound; in the start signal the line shows both levels. -/
theorem witness_StoppedClockHangsTheRead :
    (∃ (s : State) (now : Instant), s.phase = .startSignal ∧ (now - s.t0).toNat < 20000 ∧ s.events.length = 2 ∧
      ∀ e ∈ s.events, e.rst = false ∧ e.now = now) ∧
    (∃ (s : State) (now : Instant), s.phase = .bitMeasure ∧ (now - s.t0).toNat < 100 ∧ s.events.length = 2 ∧
      ∀ e ∈ s.events, e.rst = false ∧ e.lineIn ≠ .low ∧ e.now = now) :=
  ⟨⟨inPhase .startSignal 1000 [sample .low 20999, sample .high 20999], 20999, by decide, by decide, by decide, by decide⟩,
    ⟨inLoop .bitMeasure 5 3 7000 [sample .high 7099, sample .high 7099], 7099, by decide, by decide, by decide, by decide⟩⟩

theorem witness_BackwardClockEndsTheWait :
    (∃ s : State, (event s).now = s.t0 - BitVec.ofNat 32 1 ∧ s.phase = .awaitRespLow) ∧
    (∃ s : State, (event s).now = s.t0 - BitVec.ofNat 32 (2 ^ 31) ∧ s.phase = .startSignal) :=
  ⟨⟨inPhase .awaitRespLow 5000 [sample .high 4999], by decide, by decide⟩,
    ⟨inPhase .startSignal 2147483648 [sample .high 0], by decide, by decide⟩⟩

/-! ### Witnesses: the bit loop -/

theorem witness_ClassifyAgainstThreshold : (48 : Duration).toNat ≤ 48 ∧ 48 < (49 : Duration).toNat := by decide

theorem witness_BitMeasureOutcomes :
    (∃ s : State, 100 ≤ ((event s).now - s.t0).toNat ∧ (event s).lineIn = .low) ∧
    (∃ s : State, ((event s).now - s.t0).toNat < 100 ∧ (event s).lineIn = .low ∧ s.bitcnt.toNat < 39) ∧
    (∃ s : State, ((event s).now - s.t0).toNat < 100 ∧ (event s).lineIn = .low ∧ s.bitcnt.toNat = 39) ∧
    (∃ s : State, ((event s).now - s.t0).toNat < 100 ∧ (event s).lineIn = .high) :=
  ⟨⟨inLoop .bitMeasure 5 3 7000 [sample .low 7100], by decide, by decide⟩,
    ⟨inLoop .bitMeasure 5 38 7000 [sample .low 7099], by decide, by decide, by decide⟩,
    ⟨inLoop .bitMeasure 5 39 7000 [sample .low 7099], by decide, by decide, by decide⟩,
    ⟨inLoop .bitMeasure 5 3 7000 [sample .high 7099], by decide, by decide⟩⟩

theorem witness_ShiftsKeepBitsInOrder :
    ∃ (s : State) (bits : List Bool), s.shreg = 0 ∧ s.bitcnt = 0 ∧ bits.length = 40 ∧ bits.length ≤ 40 :=
  ⟨inPhase .bitSync 0 [], List.replicate 40 true, by decide, by decide, by simp, by simp⟩

theorem witness_BitsArePackedMostSignificantFirst : ∃ (bits : List Bool) (k : Nat), k < 40 ∧ bits.length = 40 ∧ k = 39 :=
  ⟨List.replicate 40 true, 39, by decide, by simp, rfl⟩

theorem witness_ShiftRegisterEqualsCursorBuffer : ∃ bits : List Bool, bits.length = 40 := ⟨List.replicate 40 true, by simp⟩

/-- The bits of VI3 (95_test_vectors.md section 3.4), stored at the cursor. -/
theorem test_VI3_cursor :
    ((byteBits 1 ++ byteBits 2 ++ byteBits 4 ++ byteBits 8 ++ byteBits 15).foldl storeAtCursor (List.replicate 5 0, 0)).1 =
      [0x01, 0x02, 0x04, 0x08, 0x0F] := by decide

/-- A cell that carries `b`, beginning at `t0`: the pulses of program P1, the sync pulse looked at once while it lasts. -/
def cellOf (t0 : Instant) (b : Bool) : Cell :=
  ⟨⟨[sample .low (t0 + 49)], sample .high (t0 + 50)⟩, ⟨[], sample .low (t0 + 50 + if b then 70 else 28)⟩⟩

theorem cellOf_reaches (t0 : Instant) (b : Bool) : (cellOf t0 b).reaches t0 := by
  refine ⟨⟨?_, rfl, rfl, ?_⟩, ⟨fun e he => absurd he (List.not_mem_nil), rfl, rfl, ?_⟩⟩
  · intro e he
    rw [List.mem_singleton.mp he]
    exact ⟨rfl, Level.noConfusion, by simp only [sample]; bv_omega⟩
  · simp only [cellOf, sample]; bv_omega
  · have h : ∀ x : Instant, t0 + 50 + x - (t0 + 50) = x := by intro x; bv_omega
    cases b <;> simp only [cellOf, sample, h] <;> decide

theorem cellOf_bit (t0 : Instant) (b : Bool) : (cellOf t0 b).bit = b := by
  have h : ∀ x : Instant, t0 + 50 + x - (t0 + 50) = x := by intro x; bv_omega
  cases b <;> simp only [Cell.bit, cellOf, sample, h] <;> decide

theorem witness_CellTakesItsBit :
    (∃ (s : State) (c : Cell) (rest : List SampleEvent), s.phase = .bitSync ∧ s.events = c.tape ++ rest ∧ c.reaches s.t0 ∧
      s.bitcnt.toNat < 40 ∧ s.bitcnt.toNat = 39) ∧
    (∃ (s : State) (c : Cell) (rest : List SampleEvent), s.phase = .bitSync ∧ s.events = c.tape ++ rest ∧ c.reaches s.t0 ∧
      s.bitcnt.toNat < 40 ∧ s.bitcnt.toNat = 38) :=
  ⟨⟨inLoop .bitSync 5 39 7000 ((cellOf 7000 true).tape ++ []), cellOf 7000 true, [], rfl, rfl, cellOf_reaches _ _, by decide, by decide⟩,
    ⟨inLoop .bitSync 5 38 7000 ((cellOf 7000 false).tape ++ []), cellOf 7000 false, [], rfl, rfl, cellOf_reaches _ _, by decide,
      by decide⟩⟩

/-! ### Witnesses: the checksum, failures, ports -/

theorem witness_SingleBitFlipFailsChecksum :
    ∃ (f : Frame) (i : Nat), i < 40 ∧ csum f = frameByte f 4 ∧ i = 39 := ⟨0x370018004F, 39, by decide, by decide, rfl⟩

theorem witness_ChecksumOutcomes :
    (∃ f : Frame, (f.toNat / 2 ^ 32 % 256 + f.toNat / 2 ^ 24 % 256 + f.toNat / 2 ^ 16 % 256 + f.toNat / 2 ^ 8 % 256) % 256 =
      f.toNat % 256) ∧
    (∃ f : Frame, (f.toNat / 2 ^ 32 % 256 + f.toNat / 2 ^ 24 % 256 + f.toNat / 2 ^ 16 % 256 + f.toNat / 2 ^ 8 % 256) % 256 ≠
      f.toNat % 256) := ⟨⟨0xFFFFFFFFFC, by decide⟩, ⟨0xFFFFFFFFFF, by decide⟩⟩

theorem witness_RaiseTimeoutEffect :
    Phase.bitMeasure ∈
      [Phase.awaitRespLow, Phase.awaitRespHigh, Phase.awaitDataStart, Phase.bitSync, Phase.bitMeasure] := by decide

theorem witness_ResultPorts :
    (okState []).status = .ok ∧ (⟨.idle, 5, 3, 0, .timeout, 6, [], 0⟩ : State).status ≠ .ok ∧
      (⟨.idle, 5, 40, 0, .checksumMismatch, 0, [], 0⟩ : State).status = .checksumMismatch ∧
      (okState []).status ≠ .checksumMismatch := by decide

/-- The rise of `excl`, and its fall at the 40th bit and at a timeout. -/
theorem witness_ExclusiveRegionEdges :
    (∃ s t : State, (event s).rst = false ∧ step s = .next t ∧ (outputs s).excl = false ∧ (outputs t).excl = true) ∧
    (∃ s t : State, (event s).rst = false ∧ step s = .next t ∧ (outputs s).excl = true ∧ (outputs t).excl = false ∧
      t.phase = .checksum) ∧
    (∃ s t : State, (event s).rst = false ∧ step s = .next t ∧ (outputs s).excl = true ∧ (outputs t).excl = false ∧
      t.phase = .idle) :=
  ⟨⟨inPhase .startSignal 0 [sample .low 20000], _, by decide, step_eq_nextState _, by decide, by decide⟩,
    ⟨inLoop .bitMeasure 5 39 7000 [sample .low 7070], _, by decide, step_eq_nextState _, by decide, by decide, by decide⟩,
    ⟨inLoop .bitSync 5 39 7000 [sample .low 7080], _, by decide, step_eq_nextState _, by decide, by decide, by decide⟩⟩

/-! ### Witnesses: rules of the whole machine -/

/-- A step from any state whose sample event is no reset. -/
theorem witness_PhaseTransitions : ∃ s t : State, (event s).rst = false ∧ step s = .next t ∧ s.phase ≠ t.phase :=
  ⟨inLoop .bitSync 5 3 7000 [sample .high 7050], _, by decide, step_eq_nextState _, by decide⟩

theorem witness_StartInstantWrites :
    (∃ s t : State, (event s).rst = false ∧ step s = .next t ∧ 1 ≤ s.phase.code.toNat ∧ s.phase.code.toNat ≤ 6 ∧
      2 ≤ t.phase.code.toNat ∧ t.phase.code.toNat ≤ 6 ∧ s.phase ≠ t.phase) ∧
    (∃ s t : State, (event s).rst = false ∧ step s = .next t ∧ s.phase = .bitMeasure ∧ t.phase = .checksum) :=
  ⟨⟨inLoop .bitMeasure 5 3 7000 [sample .low 7050], _, by decide, step_eq_nextState _, by decide, by decide, by decide, by decide,
      by decide⟩,
    ⟨inLoop .bitMeasure 5 39 7000 [sample .low 7050], _, by decide, step_eq_nextState _, by decide, by decide⟩⟩

theorem witness_FrameRegisterWrites :
    ∃ s t : State, (event s).rst = false ∧ step s = .next t ∧ s.phase = .bitMeasure ∧ t.phase = .bitSync :=
  ⟨inLoop .bitMeasure 5 3 7000 [sample .low 7050], _, by decide, step_eq_nextState _, by decide, by decide⟩

theorem witness_ResultRegisterWrites :
    ∃ s t : State, (event s).rst = false ∧ step s = .next t ∧ t.status = .timeout ∧ s.phase = .awaitDataStart :=
  ⟨inPhase .awaitDataStart 0 [sample .low 100], _, by decide, step_eq_nextState _, by decide, by decide⟩

/-- Each clause: the line, the line and the clock, and everything, at steps where they are not read. -/
theorem witness_UnreadInputsHaveNoEffect :
    (∃ (s : State) (e e' : SampleEvent), e.rst = e'.rst ∧ s.phase = .startSignal ∧ e.start = e'.start ∧ e.now = e'.now ∧ e ≠ e') ∧
    (∃ (s : State) (e e' : SampleEvent), e.rst = e'.rst ∧ s.phase = .checksum ∧ e.now ≠ e'.now) ∧
    (∃ (s : State) (e e' : SampleEvent), e.rst = e'.rst ∧ s.phase = .idle ∧ e.start = false ∧ e'.start = false ∧ e.now ≠ e'.now) ∧
    (∃ e e' : SampleEvent, e.rst = e'.rst ∧ e.rst = true ∧ e ≠ e') :=
  ⟨⟨inPhase .startSignal 0 [], sample .low 5, sample .high 5, by decide, by decide, by decide, by decide, by decide⟩,
    ⟨inLoop .checksum 0 40 0 [], sample .low 5, sample .low 6, by decide, by decide, by decide⟩,
    ⟨okState [], sample .low 5, sample .high 6, by decide, by decide, by decide, by decide, by decide⟩,
    ⟨⟨true, true, .low, 5⟩, ⟨true, false, .high, 6⟩, by decide, by decide, by decide⟩⟩

/-- A state after a successful read meets the invariant. -/
theorem okState_inv (es : List SampleEvent) : Inv (okState es) := by
  (constructor <;> simp [okState]); decide

/-- A state in the middle of the loop meets the invariant. -/
theorem loop_inv (es : List SampleEvent) : Inv (inLoop .bitMeasure 0x1B800C0027 39 7000 es) := by
  constructor <;> simp [inLoop]

theorem witness_StepKeepsInv : ∃ s t : State, Inv s ∧ step s = .next t ∧ s.phase = .bitMeasure ∧ t.phase = .checksum :=
  ⟨inLoop .bitMeasure 0x1B800C0027 39 7000 [sample .low 7070], _, loop_inv _, step_eq_nextState _, by decide, by decide⟩

theorem witness_ReadingComesFromCheckedFrame : Inv (okState []) ∧ (outputs (okState [])).readingValid = true :=
  ⟨okState_inv _, by decide⟩

theorem witness_ResultStaysUntilNextRead :
    ∃ (s : State) (k : Nat), s.phase = .idle ∧ k ≤ s.events.length ∧ k = 2 ∧
      ∀ e ∈ s.events, e.rst = false ∧ e.start = false :=
  ⟨okState [sample .low 1, sample .high 99], 2, by decide, by decide, rfl, by decide⟩

/-! ### Witnesses: whole reads -/

theorem witness_NoCarryOverBetweenReads :
    ∃ (s s' : State) (e : SampleEvent) (es : List SampleEvent) (k : Nat), s.phase = .idle ∧ s'.phase = .idle ∧
      s.events = e :: es ∧ s'.events = e :: es ∧ e.rst = false ∧ e.start = true ∧ k ≤ es.length ∧ k = 1 ∧ s.shreg ≠ s'.shreg :=
  ⟨okState [request .low 5, sample .low 6], ⟨.idle, 0, 0, 3, .timeout, 2, [request .low 5, sample .low 6], 8⟩, request .low 5,
    [sample .low 6], 1, by decide, by decide, rfl, rfl, by decide, by decide, by decide, rfl, by decide⟩

theorem witness_ReadIsInvariantUnderClockShift :
    ∃ (s : State) (e : SampleEvent) (es : List SampleEvent) (k : Nat), s.phase = .idle ∧ s.events = e :: es ∧ e.rst = false ∧
      e.start = true ∧ noReset es ∧ k ≤ es.length ∧ k = 2 :=
  ⟨okState [request .low 0, sample .high 20000, sample .low 20030], request .low 0, [sample .high 20000, sample .low 20030], 2,
    by decide, rfl, by decide, by decide, by intro e he; revert e; decide, by decide, rfl⟩

/-- At an accept, and at a step that takes a bit. -/
theorem witness_StepKeepsClockShift :
    (∃ s t : State, s.events ≠ [] ∧ (event s).rst = false ∧ step s = .next t ∧ s.phase = .idle ∧ t.phase = .startSignal) ∧
    (∃ s t : State, s.events ≠ [] ∧ (event s).rst = false ∧ step s = .next t ∧ s.phase = .bitMeasure ∧ t.phase = .bitSync) :=
  ⟨⟨okState [request .low 5], _, by decide, by decide, step_eq_nextState _, by decide, by decide⟩,
    ⟨inLoop .bitMeasure 5 3 7000 [sample .low 7050], _, by decide, by decide, step_eq_nextState _, by decide, by decide⟩⟩

/-- The cells that carry the bits, one after the other from `t0`. -/
def cellsOf : Instant → List Bool → List Cell
  | _, [] => []
  | t0, b :: bs => cellOf t0 b :: cellsOf (cellOf t0 b).pulse.last.now bs

theorem cellsOf_reach (t0 : Instant) (bs : List Bool) : cellsReach t0 (cellsOf t0 bs) := by
  induction bs generalizing t0 with
  | nil => trivial
  | cons b bs ih => exact ⟨cellOf_reaches t0 b, ih _⟩

theorem cellsOf_bits (t0 : Instant) (bs : List Bool) : (cellsOf t0 bs).map Cell.bit = bs := by
  induction bs generalizing t0 with
  | nil => rfl
  | cons b bs ih => rw [cellsOf, List.map_cons, ih, cellOf_bit]

theorem cellsOf_length (t0 : Instant) (bs : List Bool) : (cellsOf t0 bs).length = bs.length := by
  rw [← List.length_map (f := Cell.bit), cellsOf_bits]

/-- The start signal and the three waits of program P1. -/
def startStay : Stay := ⟨[sample .low 19999], sample .low 20000⟩
def respLowStay : Stay := ⟨[sample .high 20001], sample .low 20030⟩
def respHighStay : Stay := ⟨[sample .low 20109], sample .high 20110⟩
def dataStartStay : Stay := ⟨[sample .high 20189], sample .low 20190⟩

theorem handshake_holds :
    startStay.holdsStart 0 ∧ respLowStay.reaches .low 60 20000 ∧ respHighStay.reaches .high 100 20030 ∧
      dataStartStay.reaches .low 100 20110 := by
  refine ⟨⟨?_, ?_⟩, ⟨?_, ?_⟩, ⟨?_, ?_⟩, ?_, ?_⟩ <;> first | decide | (intro e he; revert e; decide)

/-- A waveform that carries the bits: accepted at 0, the handshake of program P1, the cells, one step for the checksum. -/
def waveOf (bs : List Bool) : Waveform where
  accept := request .high 0
  hold := startStay
  respLow := respLowStay
  respHigh := respHighStay
  dataStart := dataStartStay
  cells := cellsOf 20190 bs
  check := sample .low 99999

theorem waveOf_complete (bs : List Bool) (h : bs.length = 40) : (waveOf bs).Complete where
  accepted := ⟨rfl, rfl⟩
  held := handshake_holds.1
  respLow := handshake_holds.2.1
  respHigh := handshake_holds.2.2.1
  dataStart := handshake_holds.2.2.2
  cells := cellsOf_reach _ _
  full := (cellsOf_length _ _).trans h
  checked := rfl

theorem witness_CompleteReadDeliversItsBits :
    ∃ (s : State) (w : Waveform) (rest : List SampleEvent), s.phase = .idle ∧ s.events = w.tape ++ rest ∧ w.Complete :=
  ⟨okState ((waveOf (List.replicate 40 true)).tape ++ [sample .high 5]), waveOf (List.replicate 40 true), [sample .high 5], rfl, rfl,
    waveOf_complete _ (by simp)⟩

/-- Every four bytes have such a waveform. -/
theorem witness_RoundTripOfFourBytes (b0 b1 b2 b3 : Byte) :
    ∃ (s : State) (w : Waveform) (rest : List SampleEvent), s.phase = .idle ∧ s.events = w.tape ++ rest ∧ w.Complete ∧
      w.bits = byteBits b0 ++ byteBits b1 ++ byteBits b2 ++ byteBits b3 ++ byteBits (b0 + b1 + b2 + b3) := by
  let bs := byteBits b0 ++ byteBits b1 ++ byteBits b2 ++ byteBits b3 ++ byteBits (b0 + b1 + b2 + b3)
  exact ⟨okState ((waveOf bs).tape ++ []), waveOf bs, [], rfl, rfl, waveOf_complete bs (by simp [bs, byteBits]),
    cellsOf_bits _ _⟩

/-- A line that stays high, sampled once a microsecond after `t`. -/
def quietTape : Nat → Instant → List SampleEvent
  | 0, _ => []
  | n + 1, t => sample .high (t + 1) :: quietTape n (t + 1)

theorem quietTape_length (n : Nat) (t : Instant) : (quietTape n t).length = n := by
  induction n generalizing t with
  | zero => rfl
  | succ n ih => rw [quietTape, List.length_cons, ih]

theorem quietTape_unit (n : Nat) (t : Instant) : noReset (quietTape n t) ∧ unitClock t (quietTape n t) := by
  induction n generalizing t with
  | zero => exact ⟨fun e he => absurd he (List.not_mem_nil), trivial⟩
  | succ n ih =>
    refine ⟨fun e he => ?_, rfl, (ih _).2⟩
    rcases List.mem_cons.mp he with rfl | he
    · rfl
    · exact (ih _).1 e he

/-- An accepted read over a quiet line, for any number of microseconds. -/
theorem quiet_read (n : Nat) :
    ∃ (s : State) (e : SampleEvent) (es : List SampleEvent), s.phase = .idle ∧ s.events = e :: es ∧ e.rst = false ∧
      e.start = true ∧ noReset es ∧ unitClock e.now es ∧ n ≤ es.length :=
  ⟨okState (request .high 0 :: quietTape n 0), request .high 0, quietTape n 0, rfl, rfl, rfl, rfl, (quietTape_unit n 0).1,
    (quietTape_unit n 0).2, Nat.le_of_eq (quietTape_length n 0).symm⟩

theorem witness_StartSignalLastsTwentyMilliseconds :
    ∃ (s : State) (e : SampleEvent) (es : List SampleEvent), s.phase = .idle ∧ s.events = e :: es ∧ e.rst = false ∧
      e.start = true ∧ noReset es ∧ unitClock e.now es ∧ 20000 ≤ es.length := quiet_read 20000

theorem witness_EveryReadEndsInTime :
    ∃ (s : State) (e : SampleEvent) (es : List SampleEvent), s.phase = .idle ∧ s.events = e :: es ∧ e.rst = false ∧
      e.start = true ∧ noReset es ∧ unitClock e.now es ∧ 27378 ≤ es.length := quiet_read 27378

/-- A read that is still busy after its release, with steps up to 20000 microseconds apart. -/
theorem witness_BusyReadIsBoundedInTime :
    ∃ (s : State) (d : Nat) (e : SampleEvent) (es : List SampleEvent), 1 ≤ d ∧ d ≤ 2 ^ 31 ∧ s.phase = .idle ∧
      s.events = e :: es ∧ e.rst = false ∧ e.start = true ∧ noReset es ∧ clockWithin d e.now es ∧
      (∀ k t, k ≤ es.length → run (k + 1) s = .next t → t.phase ≠ .idle) ∧ advance e.now es = 20030 := by
  refine ⟨okState [request .low 0, sample .high 20000, sample .low 20030], 20000, request .low 0,
    [sample .high 20000, sample .low 20030], by decide, by decide, rfl, rfl, rfl, rfl, by intro e he; revert e; decide,
    ⟨by decide, by decide, trivial⟩, ?_, by decide⟩
  intro k t hk h
  rw [run_next_iff] at h
  subst h
  have hk : k ≤ 2 := hk
  interval_cases k <;> decide

end Sys2Proof.Tests
end

section
/-! The parameters of a build (00_scope.md R8, R9). -/

namespace Sys2Proof.Config

/-- R9: what the four checks on a build's parameters ask, in plain arithmetic. -/
theorem Params.wellFormed_iff (p : Params) :
    p.wellFormed = true ↔
      p.tThresh < p.bBitCap ∧
      (∀ t ∈ [p.tStartLow, p.bRespLow, p.bRespHigh, p.bDataStart, p.bBitSync, p.bBitCap], t < 2 ^ p.timeW) ∧
      p.nBits = 8 * p.nBytes ∧ p.nBits < 2 ^ p.bitcntW := by
  simp only [wellFormed, threshBelowCap, timesFit, wholeBytes, countFits, Bool.and_eq_true, List.all_eq_true,
    decide_eq_true_eq, and_assoc]

@[simp] theorem build_nBytes : build.nBytes = 5 := rfl
@[simp] theorem build_timeW : build.timeW = 32 := rfl
@[simp] theorem build_bitcntW : build.bitcntW = 6 := rfl

/-- R9: this build's threshold is below its cap, its times fit an Instant, and its 40 bits are whole bytes that `BITCNT` counts. -/
theorem build_wellFormed : build.wellFormed = true := by
  rw [Params.wellFormed_iff]
  refine ⟨?threshBelowCap, ?timesFit, ?wholeBytes, ?countFits⟩
  case threshBelowCap => simp
  case timesFit => simp
  case wholeBytes => simp
  case countFits => simp

open Sys2Proof.Machine in
/-- Settles O1: each parameter by its own equation, the constraints of R9 by `build_wellFormed`. -/
theorem buildParametersAreTheDocuments : Obligations.BuildParametersAreTheDocuments :=
  ⟨build_tStartLow, build_bRespLow, build_bRespHigh, build_bDataStart, build_bBitSync, build_bBitCap, build_tThresh,
    build_nBits, build_nBytes, build_timeW, build_bitcntW, build_wellFormed⟩

end Sys2Proof.Config
end

section
/-! The invariant of reachable registers (R24, R27, R105, R120), kept by every step: `inv_of_busy` and `inv_of_idle` say what is
left to show during a read and at its end, and there is one lemma for each case of `StepCase` that writes a register. -/

namespace Sys2Proof.Safety

open Sys2Proof.Machine

/-- Outside `IDLE` no result is held (R26). -/
theorem Inv.status_none {s : State} (h : Inv s) (hp : s.phase ≠ .idle) : s.status = .none := by
  by_contra hs
  exact hp (h.result_only_idle hs)

theorem Inv.failPhase_zero {s : State} (h : Inv s) (hs : s.status ≠ .timeout) : s.failPhase = 0 := by
  by_contra hf
  exact hs (h.failPhase_iff.mp hf)

end Sys2Proof.Safety

namespace Sys2Proof.Machine

open Sys2Proof.Safety

/-! ### The phases of a wait by their codes -/

theorem Wait.code_range {p : Phase} {l : Level} {b : Nat} (h : Wait p l b) : 2 ≤ p.code.toNat ∧ p.code.toNat ≤ 6 := by
  rcases h.phases with rfl | rfl | rfl | rfl | rfl <;> decide

theorem Wait.ne_idle {p : Phase} {l : Level} {b : Nat} (h : Wait p l b) : p ≠ .idle := by
  rintro rfl
  exact absurd h.code_range.1 (by decide)

/-! ### The invariant at a state of a read and at a state of `IDLE` -/

section
variable {s : State}

theorem inv_consume (h : Inv s) : Inv (consume s) :=
  ⟨h.bitcnt_le, h.checksum_full, h.loop_not_full, h.before_loop, h.result_only_idle, h.failPhase_iff, h.failPhase_range,
    h.shreg_lt, h.ok_checked, h.mismatch_checked⟩

/-- With no result held, only the clauses of `PHASE`, `SHREG` and `BITCNT` are left. -/
theorem inv_of_busy (hs : s.status = .none) (hf : s.failPhase = 0) (bitcnt_le : s.bitcnt.toNat ≤ 40)
    (checksum_full : s.phase = .checksum → s.bitcnt.toNat = 40)
    (loop_not_full : s.phase = .bitSync ∨ s.phase = .bitMeasure → s.bitcnt.toNat < 40)
    (before_loop : s.phase = .startSignal ∨ s.phase = .awaitRespLow ∨ s.phase = .awaitRespHigh ∨
      s.phase = .awaitDataStart → s.bitcnt = 0 ∧ s.shreg = 0)
    (shreg_lt : s.shreg.toNat < 2 ^ s.bitcnt.toNat) : Inv s where
  bitcnt_le := bitcnt_le
  checksum_full := checksum_full
  loop_not_full := loop_not_full
  before_loop := before_loop
  result_only_idle := by simp [hs]
  failPhase_iff := by simp [hs, hf]
  failPhase_range := by simp [hs]
  shreg_lt := shreg_lt
  ok_checked := by simp [hs]
  mismatch_checked := by simp [hs]

/-- In `IDLE` only the clauses of the result and the size of the frame are left. -/
theorem inv_of_idle (hp : s.phase = .idle) (bitcnt_le : s.bitcnt.toNat ≤ 40)
    (shreg_lt : s.shreg.toNat < 2 ^ s.bitcnt.toNat) (failPhase_iff : s.failPhase ≠ 0 ↔ s.status = .timeout)
    (failPhase_range : s.status = .timeout → 2 ≤ s.failPhase.toNat ∧ s.failPhase.toNat ≤ 6)
    (ok_checked : s.status = .ok → s.bitcnt.toNat = 40 ∧ csum s.shreg = frameByte s.shreg 4)
    (mismatch_checked : s.status = .checksumMismatch → s.bitcnt.toNat = 40 ∧ csum s.shreg ≠ frameByte s.shreg 4) :
    Inv s where
  bitcnt_le := bitcnt_le
  checksum_full := by simp [hp]
  loop_not_full := by simp [hp]
  before_loop := by simp [hp]
  result_only_idle := fun _ => hp
  failPhase_iff := failPhase_iff
  failPhase_range := failPhase_range
  shreg_lt := shreg_lt
  ok_checked := ok_checked
  mismatch_checked := mismatch_checked

/-! ### The cases of a step -/

theorem inv_resetRegisters (s : State) : Inv (resetRegisters s) := by
  apply inv_of_idle <;> simp

theorem inv_acceptRead (s : State) : Inv (acceptRead s) := by
  apply inv_of_busy <;> simp

/-- Where no bit can have been taken, the frame is still empty in the next phase. -/
theorem inv_enter_of_before_loop {q : Phase} (h : Inv s)
    (hp : s.phase = .startSignal ∨ s.phase = .awaitRespLow ∨ s.phase = .awaitRespHigh ∨ s.phase = .awaitDataStart)
    (hq : q ≠ .checksum) : Inv (enter q s) := by
  have hs : s.status = .none := h.status_none fun hi => by simp [hi] at hp
  have hf : s.failPhase = 0 := h.failPhase_zero (by simp [hs])
  obtain ⟨hb, hz⟩ := h.before_loop hp
  apply inv_of_busy <;> simp [hs, hf, hb, hz, hq]

theorem inv_enter_bitMeasure (h : Inv s) (hp : s.phase = .bitSync) : Inv (enter .bitMeasure s) := by
  have hs : s.status = .none := h.status_none (by simp [hp])
  have hf : s.failPhase = 0 := h.failPhase_zero (by simp [hs])
  have hb : s.bitcnt.toNat < 40 := h.loop_not_full (.inl hp)
  exact inv_of_busy hs hf hb.le nofun (fun _ => hb) nofun h.shreg_lt

theorem inv_advance {l : Level} {b : Nat} {q : Phase} (h : Inv s) (ha : Advance s.phase l b q) : Inv (enter q s) := by
  rcases ha.phases with ⟨hp, rfl⟩ | ⟨hp, rfl⟩ | ⟨hp, rfl⟩ | ⟨hp, rfl⟩
  · exact inv_enter_of_before_loop h (by simp [hp]) (by simp)
  · exact inv_enter_of_before_loop h (by simp [hp]) (by simp)
  · exact inv_enter_of_before_loop h (by simp [hp]) (by simp)
  · exact inv_enter_bitMeasure h hp

/-- A timeout keeps the frame and names a phase from 2 to 6 (R27, R130). -/
theorem inv_timeout {l : Level} {b : Nat} (h : Inv s) (hw : Wait s.phase l b) : Inv (raise (.timeout s.phase) s) := by
  have hr := hw.code_range
  have hc : s.phase.code ≠ 0#3 := by
    intro h0
    simp [h0] at hr
  apply inv_of_idle <;> simp [h.bitcnt_le, h.shreg_lt, hr, hc]

/-- One bit more keeps `SHREG` below `2^BITCNT`, as long as the count does not wrap (R105). -/
theorem shiftIn_shreg_lt (b : Bool) (h : s.shreg.toNat < 2 ^ s.bitcnt.toNat) (hb : s.bitcnt.toNat < 40) :
    (shiftIn b s).bitcnt.toNat = s.bitcnt.toNat + 1 ∧ (shiftIn b s).shreg.toNat < 2 ^ (shiftIn b s).bitcnt.toNat := by
  have hn : (shiftIn b s).bitcnt.toNat = s.bitcnt.toNat + 1 := by
    rw [shiftIn_bitcnt]
    bv_omega
  refine ⟨hn, ?_⟩
  calc (shiftIn b s).shreg.toNat
      = (2 * s.shreg.toNat + b.toNat) % 2 ^ 40 := shifted_toNat s.shreg b
    _ ≤ 2 * s.shreg.toNat + b.toNat := Nat.mod_le _ _
    _ < 2 ^ (s.bitcnt.toNat + 1) := by have := b.toNat_le; omega
    _ = 2 ^ (shiftIn b s).bitcnt.toNat := by rw [hn]

theorem inv_bit (b : Bool) (h : Inv s) (hp : s.phase = .bitMeasure) (hb : s.bitcnt.toNat ≠ 39) :
    Inv (enter .bitSync (shiftIn b s)) := by
  have hs : s.status = .none := h.status_none (by simp [hp])
  have hf : s.failPhase = 0 := h.failPhase_zero (by simp [hs])
  have hlt : s.bitcnt.toNat < 40 := h.loop_not_full (.inr hp)
  obtain ⟨hn, hsh⟩ := shiftIn_shreg_lt b h.shreg_lt hlt
  have hn' : (shiftIn b s).bitcnt.toNat < 40 := by omega
  exact inv_of_busy hs hf hn'.le nofun (fun _ => hn') nofun hsh

theorem inv_lastBit (b : Bool) (h : Inv s) (hp : s.phase = .bitMeasure) (hb : s.bitcnt.toNat = 39) :
    Inv { shiftIn b s with phase := .checksum } := by
  have hs : s.status = .none := h.status_none (by simp [hp])
  have hf : s.failPhase = 0 := h.failPhase_zero (by simp [hs])
  obtain ⟨hn, hsh⟩ := shiftIn_shreg_lt b h.shreg_lt (by omega)
  have hn' : (shiftIn b s).bitcnt.toNat = 40 := by omega
  exact inv_of_busy hs hf hn'.le (fun _ => hn') nofun nofun hsh

theorem inv_ok (h : Inv s) (hp : s.phase = .checksum) (hc : csum s.shreg = frameByte s.shreg 4) :
    Inv { s with status := .ok, phase := .idle } := by
  have hf : s.failPhase = 0 := h.failPhase_zero (by simp [h.status_none (by simp [hp])])
  exact inv_of_idle rfl h.bitcnt_le h.shreg_lt (by simp [hf]) nofun (fun _ => ⟨h.checksum_full hp, hc⟩) nofun

theorem inv_mismatch (h : Inv s) (hp : s.phase = .checksum) (hc : csum s.shreg ≠ frameByte s.shreg 4) :
    Inv (raise .checksumMismatch s) := by
  have hf : s.failPhase = 0 := h.failPhase_zero (by simp [h.status_none (by simp [hp])])
  exact inv_of_idle rfl h.bitcnt_le h.shreg_lt (by simp [hf]) nofun nofun (fun _ => ⟨h.checksum_full hp, hc⟩)

/-- Whatever a step that is no reset does keeps the invariant. -/
theorem StepCase.inv {u : State} (hu : StepCase s u) (h : Inv s) : Inv u := by
  cases hu with
  | idle hp hs => exact h
  | accept hp hs => exact inv_acceptRead s
  | hold hp he => exact h
  | release hp he => exact inv_enter_of_before_loop h (.inl hp) (by simp)
  | pending hw he hl => exact h
  | timeout hw he => exact inv_timeout h hw
  | advance ha he hl => exact inv_advance h ha
  | bit hp hb he hl => exact inv_bit _ h hp hb
  | lastBit hp hb he hl => exact inv_lastBit _ h hp hb
  | ok hp hc => exact inv_ok h hp hc
  | mismatch hp hc => exact inv_mismatch h hp hc

end

/-- Settles O46: a reset step gives the reset registers, any other step is a case of `StepCase.inv`. -/
theorem stepKeepsInv : Obligations.StepKeepsInv := by
  intro s t h hst
  obtain ⟨-, rfl⟩ | ⟨-, u, hu, rfl⟩ := step_cases hst
  · exact inv_consume (inv_resetRegisters s)
  · exact inv_consume (hu.inv h)

/-- Settles O45: the reset state is one whose registers were just reset. -/
theorem resetMeetsInv : Obligations.ResetMeetsInv :=
  inv_resetRegisters State.reset

end Sys2Proof.Machine
end

section
/-! What a step writes (R21 to R27, R34): each rule is shown for every case of `StepCase`, and `step_run_cases` carries it over to
the steps that are no reset. -/

namespace Sys2Proof.Machine

/-- The step inversion at a step that is no reset. -/
theorem step_run_cases {s t : State} (hr : (event s).rst = false) (h : step s = .next t) :
    ∃ u, StepCase s u ∧ t = consume u := by
  obtain ⟨hr', -⟩ | ⟨-, hu⟩ := step_cases h
  · rw [hr] at hr'
    contradiction
  · exact hu

theorem Advance.next_code_range {p q : Phase} {l : Level} {b : Nat} (h : Advance p l b q) :
    2 ≤ q.code.toNat ∧ q.code.toNat ≤ 6 := by
  cases h <;> decide

theorem Advance.next_ne_idle {p q : Phase} {l : Level} {b : Nat} (h : Advance p l b q) : q ≠ .idle := by
  cases h <;> decide

theorem Advance.ne_next {p q : Phase} {l : Level} {b : Nat} (h : Advance p l b q) : p ≠ q := by
  cases h <;> decide

/-! ### The exclusive region (R34) -/

theorem inExclusiveRegion_iff (p : Phase) : inExclusiveRegion p = true ↔ 2 ≤ p.code.toNat ∧ p.code.toNat ≤ 6 := by
  simp [inExclusiveRegion]

/-- The exclusive region by the names of its phases. -/
theorem inExclusiveRegion_iff_mem (p : Phase) :
    inExclusiveRegion p = true ↔ p ∈ [Phase.awaitRespLow, .awaitRespHigh, .awaitDataStart, .bitSync, .bitMeasure] := by
  cases p <;> decide

@[simp] theorem inExclusiveRegion_idle : inExclusiveRegion .idle = false := rfl
@[simp] theorem inExclusiveRegion_startSignal : inExclusiveRegion .startSignal = false := rfl
@[simp] theorem inExclusiveRegion_bitSync : inExclusiveRegion .bitSync = true := rfl
@[simp] theorem inExclusiveRegion_bitMeasure : inExclusiveRegion .bitMeasure = true := rfl
@[simp] theorem inExclusiveRegion_checksum : inExclusiveRegion .checksum = false := rfl

theorem Wait.inExclusiveRegion {p : Phase} {l : Level} {b : Nat} (h : Wait p l b) : inExclusiveRegion p = true :=
  (inExclusiveRegion_iff p).mpr h.code_range

theorem Advance.next_inExclusiveRegion {p q : Phase} {l : Level} {b : Nat} (h : Advance p l b q) :
    inExclusiveRegion q = true :=
  (inExclusiveRegion_iff q).mpr h.next_code_range

/-- `excl` rises only at the end of the start signal. -/
theorem StepCase.excl_rise {s u : State} (hu : StepCase s u) (h0 : inExclusiveRegion s.phase = false)
    (h1 : inExclusiveRegion u.phase = true) : s.phase = .startSignal ∧ u.phase = .awaitRespLow := by
  cases hu with
  | idle hp hs => simp [h0] at h1
  | accept hp hs => simp at h1
  | hold hp he => simp [h0] at h1
  | release hp he => exact ⟨hp, rfl⟩
  | pending hw he hl => simp [h0] at h1
  | timeout hw he => simp at h1
  | advance ha he hl => simp [(Wait.advance ha).inExclusiveRegion] at h0
  | bit hp hb he hl => simp [hp] at h0
  | lastBit hp hb he hl => simp at h1
  | ok hp hc => simp at h1
  | mismatch hp hc => simp at h1

/-- `excl` falls only where the 40th bit is taken or a timeout is raised. -/
theorem StepCase.excl_fall {s u : State} (hu : StepCase s u) (h0 : inExclusiveRegion s.phase = true)
    (h1 : inExclusiveRegion u.phase = false) :
    (s.phase = .bitMeasure ∧ u.phase = .checksum ∧ s.bitcnt.toNat = 39 ∧ u.bitcnt.toNat = 40) ∨
    (u.phase = .idle ∧ u.status = .timeout ∧ u.failPhase = s.phase.code) := by
  cases hu with
  | idle hp hs => simp [h0] at h1
  | accept hp hs => simp [hp] at h0
  | hold hp he => simp [h0] at h1
  | release hp he => simp [hp] at h0
  | pending hw he hl => simp [h0] at h1
  | timeout hw he => exact .inr ⟨rfl, rfl, rfl⟩
  | advance ha he hl => simp [ha.next_inExclusiveRegion] at h1
  | bit hp hb he hl => simp at h1
  | lastBit hp hb he hl =>
    refine .inl ⟨hp, rfl, hb, ?_⟩
    show (s.bitcnt + 1).toNat = 40
    bv_omega
  | ok hp hc => simp [hp] at h0
  | mismatch hp hc => simp [hp] at h0

/-- Settles O39, by the edges of each case of a step. -/
theorem exclusiveRegionEdges : Obligations.ExclusiveRegionEdges := by
  intro s t hr hst
  obtain ⟨u, hu, rfl⟩ := step_run_cases hr hst
  exact ⟨inExclusiveRegion_iff_mem s.phase, hu.excl_rise, hu.excl_fall⟩

/-! ### `PHASE` (R21) -/

/-- Settles O40: the pair of phases of each case of a step is listed. -/
theorem phaseTransitions : Obligations.PhaseTransitions := by
  intro s t hr hst
  obtain ⟨u, hu, rfl⟩ := step_run_cases hr hst
  cases hu with
  | idle hp hs => simp [hp]
  | accept hp hs => simp [hp]
  | hold hp he => simp [hp]
  | release hp he => simp [hp]
  | pending hw he hl => rcases hw.phases with hp | hp | hp | hp | hp <;> simp [hp]
  | timeout hw he => rcases hw.phases with hp | hp | hp | hp | hp <;> simp [hp]
  | advance ha he hl => rcases ha.phases with ⟨hp, rfl⟩ | ⟨hp, rfl⟩ | ⟨hp, rfl⟩ | ⟨hp, rfl⟩ <;> simp [hp]
  | bit hp hb he hl => simp [hp]
  | lastBit hp hb he hl => simp [hp]
  | ok hp hc => simp [hp]
  | mismatch hp hc => simp [hp]

/-! ### `T0` (R25) -/

/-- R25: the changes of `PHASE` that load `T0`. -/
def LoadsT0 (p q : Phase) : Prop :=
  (p = .idle ∧ q = .startSignal) ∨
  (1 ≤ p.code.toNat ∧ p.code.toNat ≤ 6 ∧ 2 ≤ q.code.toNat ∧ q.code.toNat ≤ 6 ∧ p ≠ q)

theorem not_loadsT0_self (p : Phase) : ¬LoadsT0 p p := by
  rintro (⟨rfl, h⟩ | ⟨-, -, -, -, h⟩) <;> contradiction

theorem not_loadsT0_idle (p : Phase) : ¬LoadsT0 p .idle := by
  rintro (⟨-, h⟩ | ⟨-, -, h, -⟩) <;> contradiction

theorem not_loadsT0_checksum (p : Phase) : ¬LoadsT0 p .checksum := by
  rintro (⟨-, h⟩ | ⟨-, -, -, h, -⟩) <;> contradiction

theorem loadsT0_release : LoadsT0 .startSignal .awaitRespLow := .inr (by decide)

theorem loadsT0_bit : LoadsT0 .bitMeasure .bitSync := .inr (by decide)

theorem Advance.loadsT0 {p q : Phase} {l : Level} {b : Nat} (h : Advance p l b q) : LoadsT0 p q := by
  obtain ⟨h2, h6⟩ := (Wait.advance h).code_range
  exact .inr ⟨by omega, h6, h.next_code_range.1, h.next_code_range.2, h.ne_next⟩

/-- Each case of a step loads `T0` with `now` where `LoadsT0` holds, or keeps it where that fails. -/
theorem StepCase.t0 {s u : State} (hu : StepCase s u) :
    (LoadsT0 s.phase u.phase ∧ u.t0 = (event s).now) ∨ (¬LoadsT0 s.phase u.phase ∧ u.t0 = s.t0) := by
  cases hu with
  | idle hp hs => exact .inr ⟨not_loadsT0_self _, rfl⟩
  | accept hp hs => exact .inl ⟨.inl ⟨hp, rfl⟩, rfl⟩
  | hold hp he => exact .inr ⟨not_loadsT0_self _, rfl⟩
  | release hp he => exact .inl ⟨hp ▸ loadsT0_release, rfl⟩
  | pending hw he hl => exact .inr ⟨not_loadsT0_self _, rfl⟩
  | timeout hw he => exact .inr ⟨not_loadsT0_idle _, rfl⟩
  | advance ha he hl => exact .inl ⟨ha.loadsT0, rfl⟩
  | bit hp hb he hl => exact .inl ⟨hp ▸ loadsT0_bit, rfl⟩
  | lastBit hp hb he hl => exact .inr ⟨not_loadsT0_checksum _, rfl⟩
  | ok hp hc => exact .inr ⟨not_loadsT0_idle _, rfl⟩
  | mismatch hp hc => exact .inr ⟨not_loadsT0_idle _, rfl⟩

/-- Settles O41: the premise of its clauses is `LoadsT0`. -/
theorem startInstantWrites : Obligations.StartInstantWrites := by
  intro s t hr hst
  obtain ⟨u, hu, rfl⟩ := step_run_cases hr hst
  obtain ⟨hl, ht⟩ | ⟨hl, ht⟩ := hu.t0
  · exact ⟨fun _ => ht, fun hn => absurd hl hn⟩
  · exact ⟨fun hy => absurd hy hl, fun _ => ht⟩

/-! ### `SHREG` and `BITCNT` (R22, R24) -/

/-- A taken bit in plain arithmetic (R103, R104; log entry 7). -/
theorem shiftIn_toNat (b : Bool) (s : State) :
    (∃ bit : Nat, bit ≤ 1 ∧ (shiftIn b s).shreg.toNat = (2 * s.shreg.toNat + bit) % 2 ^ 40) ∧
    (shiftIn b s).bitcnt.toNat = (s.bitcnt.toNat + 1) % 64 :=
  ⟨⟨b.toNat, b.toNat_le, shifted_toNat s.shreg b⟩, BitVec.toNat_add s.bitcnt 1⟩

/-- A change of `PHASE` that is neither an accept nor the end of a data pulse. -/
def KeepsFrame (p q : Phase) : Prop :=
  ¬(p = .idle ∧ q = .startSignal) ∧ ¬(p = .bitMeasure ∧ (q = .bitSync ∨ q = .checksum))

theorem keepsFrame_self (p : Phase) : KeepsFrame p p := by
  cases p <;> simp [KeepsFrame]

theorem keepsFrame_idle (p : Phase) : KeepsFrame p .idle := by
  simp [KeepsFrame]

theorem Advance.keepsFrame {p q : Phase} {l : Level} {b : Nat} (h : Advance p l b q) : KeepsFrame p q := by
  cases h <;> simp [KeepsFrame]

/-- Each case of a step clears the frame at an accept, takes one bit, or keeps the frame. -/
theorem StepCase.frame {s u : State} (hu : StepCase s u) :
    (s.phase = .idle ∧ u.phase = .startSignal ∧ u.shreg = 0 ∧ u.bitcnt = 0) ∨
    (s.phase = .bitMeasure ∧ (u.phase = .bitSync ∨ u.phase = .checksum) ∧
      ∃ b, u.shreg = (shiftIn b s).shreg ∧ u.bitcnt = (shiftIn b s).bitcnt) ∨
    (KeepsFrame s.phase u.phase ∧ u.shreg = s.shreg ∧ u.bitcnt = s.bitcnt) := by
  cases hu with
  | idle hp hs => exact .inr (.inr ⟨keepsFrame_self _, rfl, rfl⟩)
  | accept hp hs => exact .inl ⟨hp, rfl, rfl, rfl⟩
  | hold hp he => exact .inr (.inr ⟨keepsFrame_self _, rfl, rfl⟩)
  | release hp he => exact .inr (.inr ⟨by simp [KeepsFrame, hp], rfl, rfl⟩)
  | pending hw he hl => exact .inr (.inr ⟨keepsFrame_self _, rfl, rfl⟩)
  | timeout hw he => exact .inr (.inr ⟨keepsFrame_idle _, rfl, rfl⟩)
  | advance ha he hl => exact .inr (.inr ⟨ha.keepsFrame, rfl, rfl⟩)
  | bit hp hb he hl => exact .inr (.inl ⟨hp, .inl rfl, _, rfl, rfl⟩)
  | lastBit hp hb he hl => exact .inr (.inl ⟨hp, .inr rfl, _, rfl, rfl⟩)
  | ok hp hc => exact .inr (.inr ⟨keepsFrame_idle _, rfl, rfl⟩)
  | mismatch hp hc => exact .inr (.inr ⟨keepsFrame_idle _, rfl, rfl⟩)

/-- Settles O42: the frame by `StepCase.frame`, a taken bit in plain arithmetic by `shiftIn_toNat`. -/
theorem frameRegisterWrites : Obligations.FrameRegisterWrites := by
  intro s t hr hst
  obtain ⟨u, hu, rfl⟩ := step_run_cases hr hst
  simp only [consume_phase, consume_shreg, consume_bitcnt]
  obtain h | ⟨hp, hq, b, hf, hn⟩ | ⟨hk, hf, hn⟩ := hu.frame
  · exact .inl h
  · rw [hf, hn]
    exact .inr (.inl ⟨hp, hq, shiftIn_toNat b s⟩)
  · exact .inr (.inr ⟨hk.1, hk.2, hf, hn⟩)

/-! ### `STATUS` and `FAIL_PHASE` (R26, R27) -/

/-- Each case of a step clears the result at an accept, writes it at the end of a read, or keeps it and stays in `IDLE` or
outside it. -/
theorem StepCase.result {s u : State} (hu : StepCase s u) :
    (s.phase = .idle ∧ u.phase = .startSignal ∧ u.status = .none ∧ u.failPhase = 0) ∨
    (s.phase = .checksum ∧ u.phase = .idle ∧ u.failPhase = s.failPhase ∧
      u.status = if csum s.shreg = frameByte s.shreg 4 then .ok else .checksumMismatch) ∨
    (2 ≤ s.phase.code.toNat ∧ s.phase.code.toNat ≤ 6 ∧ u.phase = .idle ∧ u.status = .timeout ∧
      u.failPhase = s.phase.code) ∨
    ((s.phase = .idle ↔ u.phase = .idle) ∧ u.status = s.status ∧ u.failPhase = s.failPhase) := by
  cases hu with
  | idle hp hs => exact .inr (.inr (.inr ⟨.rfl, rfl, rfl⟩))
  | accept hp hs => exact .inl ⟨hp, rfl, rfl, rfl⟩
  | hold hp he => exact .inr (.inr (.inr ⟨.rfl, rfl, rfl⟩))
  | release hp he => exact .inr (.inr (.inr ⟨by simp [hp], rfl, rfl⟩))
  | pending hw he hl => exact .inr (.inr (.inr ⟨.rfl, rfl, rfl⟩))
  | timeout hw he => exact .inr (.inr (.inl ⟨hw.code_range.1, hw.code_range.2, rfl, rfl, rfl⟩))
  | advance ha he hl =>
    exact .inr (.inr (.inr ⟨iff_of_false (Wait.advance ha).ne_idle ha.next_ne_idle, rfl, rfl⟩))
  | bit hp hb he hl => exact .inr (.inr (.inr ⟨by simp [hp], rfl, rfl⟩))
  | lastBit hp hb he hl => exact .inr (.inr (.inr ⟨by simp [hp], rfl, rfl⟩))
  | ok hp hc => exact .inr (.inl ⟨hp, rfl, rfl, (if_pos hc).symm⟩)
  | mismatch hp hc => exact .inr (.inl ⟨hp, rfl, rfl, (if_neg hc).symm⟩)

/-- Settles O43, by `StepCase.result`: a step that stays in `IDLE` is no accept. -/
theorem resultRegisterWrites : Obligations.ResultRegisterWrites := by
  intro s t hr hst
  obtain ⟨u, hu, rfl⟩ := step_run_cases hr hst
  simp only [consume_phase, consume_status, consume_failPhase]
  obtain h | h | h | ⟨hi, hs, hf⟩ := hu.result
  · exact .inl h
  · exact .inr (.inl h)
  · exact .inr (.inr (.inl h))
  · have no_accept : ¬(s.phase = .idle ∧ u.phase = .startSignal) := fun ⟨hp, hq⟩ => by simp [hi.mp hp] at hq
    exact .inr (.inr (.inr ⟨hi, no_accept, hs, hf⟩))

end Sys2Proof.Machine
end

section
/-! Two reads over the same inputs (R28): an accept gives the same registers from any state of `IDLE`, and after it the step
number is never looked at while sample events are listed. -/

namespace Sys2Proof.Machine

open Sys2Proof.Safety

/-- The whole state after an accept (R81): of the registers before it nothing is left. -/
theorem nextState_accept {s : State} {e : SampleEvent} {es : List SampleEvent} (hp : s.phase = .idle)
    (he : s.events = e :: es) (hr : e.rst = false) (hs : e.start = true) :
    nextState s = ⟨.startSignal, 0, 0, e.now, .none, 0, es, s.stepNo + 1⟩ := by
  have hev : event s = e := event_of_events s he
  rw [after_case he hr (.accept hp (by rw [hev, hs])), acceptRead, clockNow, hev]
  rfl

/-- A run over listed inputs does not look at the step number. -/
theorem after_withStepNo (k : Nat) {s : State} (n : Nat) (hk : k ≤ s.events.length) :
    after k (withInputs s s.events n) = withInputs (after k s) (after k s).events (n + k) := by
  induction k generalizing s n with
  | zero => rfl
  | succ k ih =>
    obtain ⟨e, es, he⟩ := List.exists_cons_of_length_pos (Nat.zero_lt_of_lt hk)
    have hev : event (withInputs s s.events n) = event s := by
      rw [event_of_events s he, event_of_events _ (show (withInputs s s.events n).events = e :: es from he)]
    have hstep : nextState (withInputs s s.events n) = withInputs (nextState s) (nextState s).events (n + 1) := by
      rw [nextState_events]
      exact nextState_withInputs (by rw [hev]) (by rw [hev]) (by rw [lineSample, hev]; rfl) (by rw [clockNow, hev]; rfl)
    have hlen : k ≤ (nextState s).events.length := by
      rw [nextState_events, List.length_tail]
      omega
    rw [after, hstep, ih (n + 1) hlen, after, Nat.add_right_comm, Nat.add_assoc]

/-- Settles O49: the states after the accept differ in the step number alone, and the run after it does not look at that. -/
theorem noCarryOverBetweenReads : Obligations.NoCarryOverBetweenReads := by
  intro s s' e es k hp hp' he he' hr hs hk
  have h' : nextState s' = withInputs (nextState s) (nextState s).events (s'.stepNo + 1) := by
    rw [nextState_accept hp' he' hr hs, nextState_accept hp he hr hs]
    rfl
  have hlen : k ≤ (nextState s).events.length := by rwa [nextState_events, he]
  have hafter : after (k + 1) s' = withInputs (after (k + 1) s) (after (k + 1) s).events (s'.stepNo + 1 + k) := by
    rw [after, h', after_withStepNo k _ hlen, after]
  refine ⟨_, _, run_eq_after (k + 1) s, run_eq_after (k + 1) s', ?_, ?_⟩
  · rw [hafter]
    rfl
  · rw [hafter]
    rfl

end Sys2Proof.Machine
end

section
/-! The step as a whole (R30), the reset state (R39), and the output ports (R23, R32 to R38). -/

namespace Sys2Proof.Machine

/-- Settles O5: the decoded operation is the one that the step runs. -/
theorem stepRunsDecodedOperation : Obligations.StepRunsDecodedOperation := by
  intro s t i hr hd _ hx
  have hreact : react s = .next t := by
    rw [react, hr, fetch, opWord, hd]
    exact hx
  rw [step, hreact]
  rfl

/-- Settles O6, by `operate`, the plain function that every operation computes. -/
theorem everyOperationCompletes : Obligations.EveryOperationCompletes := by
  intro i s
  obtain ⟨he, hn⟩ := operate_events i s
  exact ⟨operate i s, exec_eq_operate i s, he, hn⟩

/-- Settles O7, by `nextState`, the plain function that the step computes. -/
theorem stepIsTotal : Obligations.StepIsTotal := fun s =>
  ⟨nextState s, step_eq_nextState s, nextState_events s, nextState_stepNo s⟩

/-- Without a reset and without a request a step in `IDLE` consumes its sample event and does nothing else (R80). -/
theorem step_idle {s : State} (hp : s.phase = .idle) (hr : (event s).rst = false) (hs : (event s).start = false) :
    step s = .next (consume s) := by
  rw [step_eq_nextState, nextState_of_case hr (.idle hp hs)]

/-- Settles O9: the registers and ports are computed from the reset state, and the idle step is `step_idle`. -/
theorem resetStateValues : Obligations.ResetStateValues :=
  ⟨rfl, rfl, rfl, rfl, rfl, rfl, by decide, fun _ => step_idle⟩

/-- Settles O31, by `frameByte_toNat` at each of the five bytes. -/
theorem frameBytes : Obligations.FrameBytes := by
  intro f
  refine ⟨frameByte_toNat f 0, frameByte_toNat f 1, frameByte_toNat f 2, frameByte_toNat f 3, ?_⟩
  simpa using frameByte_toNat f 4

section
variable (s : State)

@[simp] theorem outputs_driveLow_iff : (outputs s).driveLow = true ↔ s.phase = .startSignal := by simp [outputs]
@[simp] theorem outputs_busy_iff : (outputs s).busy = true ↔ s.phase ≠ .idle := by simp [outputs]
@[simp] theorem outputs_done_iff : (outputs s).done = true ↔ s.phase = .idle ∧ s.status ≠ .none := by simp [outputs]
@[simp] theorem outputs_readingValid_iff : (outputs s).readingValid = true ↔ s.status = .ok := by simp [outputs]

@[simp] theorem outputs_excl_iff :
    (outputs s).excl = true ↔ s.phase = .awaitRespLow ∨ s.phase = .awaitRespHigh ∨ s.phase = .awaitDataStart ∨
      s.phase = .bitSync ∨ s.phase = .bitMeasure := by
  exact (inExclusiveRegion_iff_mem s.phase).trans (by simp)

end

/-- Settles O37: the two exclusions hold because the ports are set in different phases. -/
theorem controlPorts : Obligations.ControlPorts := by
  intro s
  refine ⟨outputs_driveLow_iff s, rfl, outputs_excl_iff s, outputs_busy_iff s, outputs_done_iff s, ?excl_driveLow, ?busy_done⟩
  case excl_driveLow =>
    rintro ⟨he, hd⟩
    simp [(outputs_driveLow_iff s).mp hd] at he
  case busy_done =>
    rintro ⟨hb, hd⟩
    exact (outputs_busy_iff s).mp hb ((outputs_done_iff s).mp hd).1

/-- Settles O38: each gated port is the view of the frame in its own status, whose bytes are those of `frameBytes`. -/
theorem resultPorts : Obligations.ResultPorts := by
  intro s
  obtain ⟨hb0, -, hb2, -, hb4⟩ := frameBytes s.shreg
  refine ⟨rfl, rfl, outputs_readingValid_iff s, ?ok, ?notOk, ?mismatch, ?notMismatch⟩
  case ok =>
    intro h
    simp [outputs, h, hb0, hb2]
  case notOk =>
    intro h
    simp [outputs, h]
  case mismatch =>
    intro h
    simp [outputs, h, hb4]
  case notMismatch =>
    intro h
    simp [outputs, h]

end Sys2Proof.Machine
end

section
/-! The order of the bits in the frame (R42, R103): the bit received last is bit 0, and each later one moves it up by one. -/

namespace Sys2Proof.Machine

/-- The bit just received is bit 0 (R103). -/
theorem shiftIn_getLsbD_zero (b : Bool) (s : State) : (shiftIn b s).shreg.getLsbD 0 = b := by
  rw [shiftIn_shreg, shifted_getLsbD, if_pos rfl]

/-- Every other bit has moved up by one (R103). -/
theorem shiftIn_getLsbD_succ (b : Bool) (s : State) {j : Nat} (hj : j + 1 < 40) :
    (shiftIn b s).shreg.getLsbD (j + 1) = s.shreg.getLsbD j := by
  rw [shiftIn_shreg, shifted_getLsbD, if_neg (Nat.succ_ne_zero j), decide_eq_true hj, Bool.true_and, Nat.add_sub_cancel]

/-- The register after a whole list of bits, bit by bit: the bits received, the last one lowest, and above them the register as
it was (R103). -/
theorem foldl_shiftIn_getLsbD (s : State) (bits : List Bool) {j : Nat} (hj : j < 40) :
    (bits.foldl (fun u b => shiftIn b u) s).shreg.getLsbD j =
      if j < bits.length then bits.getD (bits.length - 1 - j) false else s.shreg.getLsbD (j - bits.length) := by
  induction bits using List.reverseRecOn generalizing j with
  | nil => simp
  | append_singleton bits b ih =>
    rw [List.foldl_append, List.foldl_cons, List.foldl_nil, List.length_append, List.length_singleton]
    cases j with
    | zero =>
      rw [shiftIn_getLsbD_zero]
      simp
    | succ j =>
      rw [shiftIn_getLsbD_succ _ _ hj, ih (by omega)]
      simp only [Nat.add_lt_add_iff_right, Nat.add_sub_add_right]
      split
      case isTrue h =>
        have hpos : bits.length + 1 - 1 - (j + 1) = bits.length - 1 - j := by omega
        rw [hpos, List.getD_append _ _ _ _ (by omega)]
      case isFalse => rfl

/-- After 40 bits the `k`-th one received is `SHREG[39 - k]` (R42). -/
theorem foldl_shiftIn_getLsbD_of_forty (s : State) {bits : List Bool} {k : Nat} (hk : k < 40) (hlen : bits.length = 40) :
    (bits.foldl (fun u b => shiftIn b u) s).shreg.getLsbD (39 - k) = bits.getD k false := by
  have hin : 39 - k < bits.length := by omega
  have hpos : bits.length - 1 - (39 - k) = k := by omega
  rw [foldl_shiftIn_getLsbD s bits (by omega), if_pos hin, hpos]

/-- Settles O29: bit `7 - (k mod 8)` of byte `k div 8` is bit `39 - k` of the register. -/
theorem bitsArePackedMostSignificantFirst : Obligations.BitsArePackedMostSignificantFirst := by
  intro s bits k hk hlen
  have hreg := foldl_shiftIn_getLsbD_of_forty s hk hlen
  have hpos : 32 - 8 * (k / 8) + (7 - k % 8) = 39 - k := by omega
  refine ⟨hreg, ?_⟩
  rw [frameByte_getLsbD _ _ _ (by omega), hpos, hreg]

end Sys2Proof.Machine
end

section
/-! What a step reads of its sample event (R44; 93_implementation_defined.md I6, I7): for reset and for the operations that read
less than the whole event, the next state written with the inputs that they do read. -/

namespace Sys2Proof.Machine

open Sys2Proof.Safety

variable {s : State} {e e' : SampleEvent}

/-- A reset reads nothing beside `rst` (R150). -/
theorem nextState_sampling_reset (hr : e.rst = true) :
    nextState (sampling e s) = withInputs (resetRegisters s) s.events (s.stepNo + 1) :=
  nextState_reset hr

/-- `IDLE` without a request reads neither the line nor the clock (R80). -/
theorem nextState_sampling_idle (hp : s.phase = .idle) (hr : e.rst = false) (hs : e.start = false) :
    nextState (sampling e s) = withInputs s s.events (s.stepNo + 1) :=
  (after_case rfl hr (StepCase.idle (s := sampling e s) hp hs)).trans rfl

/-- `START_SIGNAL` reads the clock alone (R83, R84). -/
theorem nextState_sampling_startSignal (hp : s.phase = .startSignal) (hr : e.rst = false) :
    nextState (sampling e s) =
      withInputs (if 20000 ≤ (e.now - s.t0).toNat then { s with phase := .awaitRespLow, t0 := e.now } else s)
        s.events (s.stepNo + 1) := by
  split
  case isTrue he => exact (after_case rfl hr (StepCase.release (s := sampling e s) hp he)).trans rfl
  case isFalse he => exact (after_case rfl hr (StepCase.hold (s := sampling e s) hp (Nat.lt_of_not_le he))).trans rfl

/-- `CHECKSUM` reads no input (R116). -/
theorem nextState_sampling_checksum (hp : s.phase = .checksum) (hr : e.rst = false) :
    nextState (sampling e s) =
      withInputs { s with
        phase := .idle
        status := if csum s.shreg = frameByte s.shreg 4 then .ok else .checksumMismatch } s.events (s.stepNo + 1) := by
  split
  case isTrue hc => exact (after_case rfl hr (StepCase.ok (s := sampling e s) hp hc)).trans rfl
  case isFalse hc => exact (after_case rfl hr (StepCase.mismatch (s := sampling e s) hp hc)).trans rfl

/-- Two sample events with the same `rst` need to be compared only at steps that are no reset. -/
theorem step_sampling_congr (hr : e.rst = e'.rst)
    (h : e.rst = false → e'.rst = false → nextState (sampling e s) = nextState (sampling e' s)) :
    step (sampling e s) = step (sampling e' s) := by
  rw [step_eq_nextState, step_eq_nextState]
  cases he : e.rst with
  | true => rw [nextState_sampling_reset he, nextState_sampling_reset (hr ▸ he)]
  | false => rw [h he (hr ▸ he)]

/-- In `IDLE` the line is not read: without a request nothing is, and an accept reads the clock alone (R80, R81). -/
theorem nextState_sampling_idle_congr (hp : s.phase = .idle) (hr : e.rst = false) (hr' : e'.rst = false)
    (hs : e.start = e'.start) (hn : e.now = e'.now) : nextState (sampling e s) = nextState (sampling e' s) := by
  cases he : e.start with
  | true =>
    rw [nextState_accept (s := sampling e s) hp rfl hr he, nextState_accept (s := sampling e' s) hp rfl hr' (hs ▸ he), hn]
    rfl
  | false => rw [nextState_sampling_idle hp hr he, nextState_sampling_idle hp hr' (hs ▸ he)]

/-- Settles O44: at a reset by `step_sampling_congr`, and in each phase by the next state as a function of what it reads. -/
theorem unreadInputsHaveNoEffect : Obligations.UnreadInputsHaveNoEffect := by
  intro s e e' hr
  refine ⟨?line, ?checksum, ?idle, ?reset⟩
  case line =>
    rintro (hp | hp) hs hn <;> refine step_sampling_congr hr fun h h' => ?_
    · exact nextState_sampling_idle_congr hp h h' hs hn
    · rw [nextState_sampling_startSignal hp h, nextState_sampling_startSignal hp h', hn]
  case checksum =>
    exact fun hp => step_sampling_congr hr fun h h' => by
      rw [nextState_sampling_checksum hp h, nextState_sampling_checksum hp h']
  case idle =>
    exact fun hp hs hs' => step_sampling_congr hr fun h h' => by
      rw [nextState_sampling_idle hp h hs, nextState_sampling_idle hp h' hs']
  case reset =>
    exact fun hrst => step_sampling_congr hr fun h => by simp [hrst] at h

end Sys2Proof.Machine
end

section
/-! The encodings (R61 to R63, R72). -/

namespace Sys2Proof

/-- The decoder by the phase that the word names (R30). -/
theorem decode_eq_operationOf (c : BitVec 3) (b : Bool) : decode ⟨c, b⟩ = operationOf (Phase.ofCode c) b := by
  simpa using decode_code (Phase.ofCode c) b

theorem Phase.ofCode_eq_idle_iff (c : BitVec 3) : Phase.ofCode c = .idle ↔ c = 0 := by
  constructor
  case mp =>
    intro h
    rw [← Phase.code_ofCode c, h]
    rfl
  case mpr =>
    rintro rfl
    rfl

/-- Outside `IDLE` the command bit is ignored (R82). -/
theorem operationOf_start_ignored {p : Phase} (hp : p ≠ .idle) (b b' : Bool) : operationOf p b = operationOf p b' := by
  cases p with
  | idle => contradiction
  | _ => rfl

/-- Settles O2: each word by its row of the table, and the ignored `start` by `operationOf_start_ignored`. -/
theorem wordsDecodeAsTabled : Obligations.WordsDecodeAsTabled := by
  refine ⟨rfl, rfl, rfl, rfl, rfl, rfl, rfl, rfl, rfl, rfl, rfl, rfl, ?_⟩
  intro c b b' hc
  rw [decode_eq_operationOf, decode_eq_operationOf]
  exact operationOf_start_ignored (mt (Phase.ofCode_eq_idle_iff c).mp hc) b b'

/-- Every operation is read back from its words (R61, R62). -/
theorem Laws.Encoding.statement_holds (i : Instr) : Laws.Encoding.Statement i := by
  cases i with
  | read => exact Laws.Encoding.read
  | idle => exact Laws.Encoding.idle
  | startSignal => exact Laws.Encoding.startSignal
  | awaitRespLow => exact Laws.Encoding.awaitRespLow
  | awaitRespHigh => exact Laws.Encoding.awaitRespHigh
  | awaitDataStart => exact Laws.Encoding.awaitDataStart
  | bitSync => exact Laws.Encoding.bitSync
  | bitMeasure => exact Laws.Encoding.bitMeasure
  | checksum => exact Laws.Encoding.checksum

/-- The canonical word of a step's operation: its phase, with the command bit kept in `IDLE` alone. -/
theorem encode_operationOf (p : Phase) (b : Bool) : encode (operationOf p b) = ⟨p.code, b && decide (p = .idle)⟩ := by
  cases p with
  | idle => cases b <;> rfl
  | _ => cases b <;> rfl

/-- Settles O3, operation by operation one way and phase by phase the other. -/
theorem decodeInvertsEncode : Obligations.DecodeInvertsEncode := by
  refine ⟨fun i _ => (Laws.Encoding.statement_holds i).2, ?_⟩
  rintro ⟨c, b⟩
  rw [decode_eq_operationOf, encode_operationOf]
  simp only [Phase.code_ofCode, Phase.ofCode_eq_idle_iff]

/-- Bit 1 of the code is the failure bit (R63). -/
theorem Status.code_getLsbD_one (st : Status) : st.code.getLsbD 1 = true ↔ st = .timeout ∨ st = .checksumMismatch := by
  cases st <;> simp [Status.code]

/-- Settles O4: the four codes as the model tables them, and bit 1 by `Status.code_getLsbD_one`. -/
theorem statusCodes : Obligations.StatusCodes :=
  ⟨rfl, rfl, rfl, rfl, Status.code_getLsbD_one⟩

end Sys2Proof
end

section
/-! A whole read as one run (R67): `RunsOver` is a run over a stretch of inputs, whatever is listed after them, so that the accept,
the waits, the bit cells and the checksum step are put together by `RunsOver.append`. -/

namespace Sys2Proof.Machine

open Sys2Proof.Safety

/-! ### Runs over a stretch of inputs -/

/-- With the inputs `tape` listed next, the registers of `s` become those of `u` in one step for each of them. -/
def RunsOver (tape : List SampleEvent) (s u : State) : Prop :=
  ∀ rest n, after tape.length (withInputs s (tape ++ rest) n) = withInputs u rest (n + tape.length)

theorem RunsOver.nil (s : State) : RunsOver [] s s := fun _ _ => rfl

theorem RunsOver.append {a b : List SampleEvent} {s u v : State} (hu : RunsOver a s u) (hv : RunsOver b u v) :
    RunsOver (a ++ b) s v := by
  intro rest n
  rw [List.length_append, after_add, List.append_assoc, hu, hv, Nat.add_assoc]

/-- The run of a state that lists the inputs first. -/
theorem RunsOver.run_eq {tape rest : List SampleEvent} {s u : State} (h : RunsOver tape s u) (he : s.events = tape ++ rest) :
    run tape.length s = .next (withInputs u rest (s.stepNo + tape.length)) := by
  rw [run_next_iff, ← h rest s.stepNo, withInputs_eq_self he rfl]

/-- The accept of a read (R81). -/
theorem runsOver_accept {e : SampleEvent} {s : State} (hp : s.phase = .idle) (hr : e.rst = false) (hs : e.start = true) :
    RunsOver [e] s { s with phase := .startSignal, shreg := 0, bitcnt := 0, t0 := e.now, status := .none, failPhase := 0 } :=
  fun _ _ => nextState_accept hp rfl hr hs

theorem runsOver_holdsStart {s : State} {w : Stay} (hp : s.phase = .startSignal) (hw : w.holdsStart s.t0) :
    RunsOver w.tape s { s with t0 := w.last.now, phase := .awaitRespLow } :=
  fun rest n => after_holdsStart (s := withInputs s (w.tape ++ rest) n) hp rfl hw

theorem runsOver_reaches {s : State} {w : Stay} {l : Level} {b : Nat} {q : Phase} (ha : Advance s.phase l b q)
    (hw : w.reaches l b s.t0) : RunsOver w.tape s { s with t0 := w.last.now, phase := q } :=
  fun rest n => after_reaches (s := withInputs s (w.tape ++ rest) n) ha rfl hw

/-- The step of `CHECKSUM` (R116). -/
theorem runsOver_checksum {e : SampleEvent} {s : State} (hp : s.phase = .checksum) (hr : e.rst = false) :
    RunsOver [e] s { s with
      phase := .idle
      status := if csum s.shreg = frameByte s.shreg 4 then .ok else .checksumMismatch } :=
  fun rest n => nextState_sampling_checksum (s := withInputs s rest n) hp hr

/-! ### A bit cell -/

/-- What a taken bit makes of the registers (R101, R104): the bit shifted in and counted, and the loop left at the 40th bit with
`T0` at the start of the data pulse, or gone round with `T0` at its end. -/
def takeBit (bit : Bool) (pulseStart pulseEnd : Instant) (s : State) : State :=
  { shiftIn bit s with
    t0 := if s.bitcnt.toNat = 39 then pulseStart else pulseEnd
    phase := if s.bitcnt.toNat = 39 then .checksum else .bitSync }

section
variable (bit : Bool) (pulseStart pulseEnd : Instant) {s : State}

theorem takeBit_last (hb : s.bitcnt.toNat = 39) :
    takeBit bit pulseStart pulseEnd s = { shiftIn bit s with t0 := pulseStart, phase := .checksum } := by
  rw [takeBit, if_pos hb, if_pos hb]

theorem takeBit_round (hb : s.bitcnt.toNat ≠ 39) :
    takeBit bit pulseStart pulseEnd s = { shiftIn bit s with t0 := pulseEnd, phase := .bitSync } := by
  rw [takeBit, if_neg hb, if_neg hb]

end

theorem stepCase_takeBit {s : State} (hp : s.phase = .bitMeasure) (he : (elapsed s).toNat < 100) (hl : lineSample s = .low) :
    StepCase s (takeBit (classify (elapsed s)) s.t0 (clockNow s) s) := by
  by_cases hb : s.bitcnt.toNat = 39
  · rw [takeBit_last _ _ _ hb]
    exact .lastBit hp hb he hl
  · rw [takeBit_round _ _ _ hb]
    exact .bit hp hb he hl

/-- A whole data pulse that ends in time (R101). -/
theorem runsOver_pulse {s : State} {w : Stay} (hp : s.phase = .bitMeasure) (hw : w.reaches .low 100 s.t0) :
    RunsOver w.tape s (takeBit (classify (w.last.now - s.t0)) s.t0 w.last.now s) := by
  obtain ⟨hpend, hr, hl, hb⟩ := hw
  have hwait : Wait s.phase .low 100 := hp ▸ .measure
  intro rest n
  refine after_stay_case (s := withInputs s (w.tape ++ rest) n) rfl (stays_of_waits hwait hpend) hr fun es' n' hev => ?_
  replace hev : event (withInputs s es' n') = w.last := hev
  have h := stepCase_takeBit (s := withInputs s es' n') hp
    (by show ((event (withInputs s es' n')).now - s.t0).toNat < 100; rwa [hev])
    (by show (event (withInputs s es' n')).lineIn = .low; rwa [hev])
  rw [elapsed, clockNow, hev] at h
  exact h

/-- A whole bit cell (R68). -/
theorem runsOver_cell {s : State} {c : Cell} (hp : s.phase = .bitSync) (hc : c.reaches s.t0) :
    RunsOver c.tape s (takeBit c.bit c.sync.last.now c.pulse.last.now s) := by
  obtain ⟨hsync, hpulse⟩ := hc
  exact (runsOver_reaches (q := .bitMeasure) (hp ▸ .sync) hsync).append (runsOver_pulse rfl hpulse)

/-- The shifted register in the arithmetic of the statements (R103). -/
theorem shiftIn_shreg_eq_ofNat (b : Bool) (s : State) :
    (shiftIn b s).shreg = BitVec.ofNat 40 (2 * s.shreg.toNat + if b = true then 1 else 0) := by
  apply BitVec.eq_of_toNat_eq
  rw [shiftIn_shreg, shifted_toNat, BitVec.toNat_ofNat]
  cases b <;> rfl

/-- The next count in the arithmetic of the statements (R104). -/
theorem shiftIn_bitcnt_eq_ofNat (b : Bool) (s : State) :
    (shiftIn b s).bitcnt = BitVec.ofNat 6 (s.bitcnt.toNat + 1) := by
  rw [shiftIn_bitcnt, BitVec.ofNat_add, BitVec.ofNat_toNat, BitVec.setWidth_eq]
  rfl

/-- Settles O30, by the run over a whole cell; it needs no bound on `BITCNT`. -/
theorem cellTakesItsBit : Obligations.CellTakesItsBit := by
  intro s c rest hp he hc _
  rw [(runsOver_cell hp hc).run_eq he]
  simp only [takeBit, shiftIn_shreg_eq_ofNat, shiftIn_bitcnt_eq_ofNat, Cell.bit, decide_eq_true_eq]
  rfl

/-! ### The forty cells -/

/-- Of the state before them, the shifts of `SHREG` read `SHREG` alone. -/
theorem foldl_shiftIn_shreg_congr (bits : List Bool) {s u : State} (h : s.shreg = u.shreg) :
    (bits.foldl (fun u b => shiftIn b u) s).shreg = (bits.foldl (fun u b => shiftIn b u) u).shreg := by
  induction bits generalizing s u with
  | nil => exact h
  | cons b bits ih => exact ih (by rw [shiftIn_shreg, shiftIn_shreg, h])

/-- The cells that are still missing take the engine out of the loop, with their bits shifted in (R67, R98, R104). -/
theorem runsOver_cells {s : State} {cs : List Cell} (hp : s.phase = .bitSync) (hc : cellsReach s.t0 cs)
    (hn : s.bitcnt.toNat < 40) (hlen : s.bitcnt.toNat + cs.length = 40) :
    ∃ u, RunsOver (cs.flatMap Cell.tape) s u ∧ u.phase = .checksum ∧ u.bitcnt = 40 ∧ u.failPhase = s.failPhase ∧
      u.shreg = ((cs.map Cell.bit).foldl (fun u b => shiftIn b u) s).shreg := by
  induction cs generalizing s with
  | nil => exact absurd hlen hn.ne
  | cons c cs ih =>
    obtain ⟨hcell, hcells⟩ := hc
    rw [List.length_cons] at hlen
    have hrun := runsOver_cell hp hcell
    have hcount := (shiftIn_toNat c.bit s).2
    by_cases hb : s.bitcnt.toNat = 39
    case pos =>
      have hnil : cs = [] := List.eq_nil_of_length_eq_zero (by omega)
      have hforty : (shiftIn c.bit s).bitcnt = 40 := BitVec.eq_of_toNat_eq (by rw [hcount, hb]; rfl)
      rw [takeBit_last _ _ _ hb] at hrun
      subst hnil
      exact ⟨_, hrun.append (.nil _), rfl, hforty, rfl, rfl⟩
    case neg =>
      have hnext : (shiftIn c.bit s).bitcnt.toNat = s.bitcnt.toNat + 1 := by omega
      rw [takeBit_round _ _ _ hb] at hrun
      obtain ⟨u, hrest, hphase, hforty, hfail, hshreg⟩ :=
        ih (s := { shiftIn c.bit s with t0 := c.pulse.last.now, phase := .bitSync }) rfl hcells
          (by show (shiftIn c.bit s).bitcnt.toNat < 40; omega)
          (by show (shiftIn c.bit s).bitcnt.toNat + cs.length = 40; omega)
      exact ⟨u, hrun.append hrest, hphase, hforty, hfail, hshreg.trans (foldl_shiftIn_shreg_congr _ rfl)⟩

/-! ### The whole read -/

/-- An accepted read up to its first bit cell (R81, R84, R93 to R95). -/
theorem runsOver_handshake {s : State} {w : Waveform} (hp : s.phase = .idle) (hw : w.Complete) :
    RunsOver (w.accept :: (w.hold.tape ++ w.respLow.tape ++ w.respHigh.tape ++ w.dataStart.tape)) s { s with
      phase := .bitSync
      shreg := 0
      bitcnt := 0
      t0 := w.dataStart.last.now
      status := .none
      failPhase := 0 } :=
  (runsOver_accept hp hw.accepted.1 hw.accepted.2).append <|
    (((runsOver_holdsStart rfl hw.held).append (runsOver_reaches .respLow hw.respLow)).append
      (runsOver_reaches .respHigh hw.respHigh)).append (runsOver_reaches .dataStart hw.dataStart)

/-- A whole read (R67), the registers after it but `T0`: the bits of its cells in `SHREG`, and the result of their checksum. -/
theorem runsOver_waveform {s : State} {w : Waveform} (hp : s.phase = .idle) (hw : w.Complete) :
    ∃ t : State, RunsOver w.tape s t ∧ t.phase = .idle ∧ t.bitcnt = 40 ∧ t.failPhase = 0 ∧
      t.shreg = (w.bits.foldl (fun u b => shiftIn b u) { s with shreg := 0 }).shreg ∧
      t.status = if csum t.shreg = frameByte t.shreg 4 then .ok else .checksumMismatch := by
  have hstart := runsOver_handshake hp hw
  obtain ⟨u, hcells, hphase, hforty, hfail, hshreg⟩ := runsOver_cells (s := { s with
      phase := .bitSync, shreg := 0, bitcnt := 0, t0 := w.dataStart.last.now, status := .none, failPhase := 0 })
    rfl hw.cells (by simp) (by simp [hw.full])
  exact ⟨_, (hstart.append hcells).append (runsOver_checksum hphase hw.checked), rfl, hforty, hfail,
    hshreg.trans (foldl_shiftIn_shreg_congr _ rfl), rfl⟩

/-- The sum invariant in plain arithmetic (R115, R116). -/
theorem csum_eq_frameByte_iff (f : Frame) :
    csum f = frameByte f 4 ↔
      (f.toNat / 2 ^ 32 % 256 + f.toNat / 2 ^ 24 % 256 + f.toNat / 2 ^ 16 % 256 + f.toNat / 2 ^ 8 % 256) % 256 =
        f.toNat % 256 := by
  obtain ⟨hb0, hb1, hb2, hb3, hb4⟩ := frameBytes f
  rw [← BitVec.toNat_inj, csum, BitVec.toNat_ofNat, hb0, hb1, hb2, hb3, hb4]

/-- Settles O51: the run over the whole waveform, its bits in order by `foldl_shiftIn_getLsbD_of_forty`. -/
theorem completeReadDeliversItsBits : Obligations.CompleteReadDeliversItsBits := by
  intro s w rest hp he hw
  obtain ⟨t, hrun, hidle, hcount, hfail, hframe, hstatus⟩ := runsOver_waveform hp hw
  have hlen : w.bits.length = 40 := by rw [Waveform.bits, List.length_map, hw.full]
  refine ⟨_, hrun.run_eq he, hidle, hcount, hfail, rfl, ?bits, ?status⟩
  case bits =>
    intro k hk
    show t.shreg.getLsbD (39 - k) = _
    rw [hframe, foldl_shiftIn_getLsbD_of_forty _ hk hlen]
  case status =>
    show t.status = _
    rw [hstatus]
    exact if_congr (csum_eq_frameByte_iff t.shreg) rfl rfl

end Sys2Proof.Machine
end

section
/-! How long a read can be busy (R84, R92, R161). `latestT0` is the latest time after the accept at which the `T0` held in each
phase can have been loaded, and `stayBound` bounds how far the clock can have moved on from it. A stay runs over its bound only at
the end of the start signal, by up to `d - 1`; a wait that does so raises its timeout, and the read is over. -/

namespace Sys2Proof.Machine

open Sys2Proof.Safety

/-- In each phase of a read the elapsed time at its last sample is below this; `CHECKSUM` still holds the `T0` of the last data
pulse (R104). -/
def stayBound : Phase → Nat
  | .idle => 0
  | .startSignal => 20000
  | .awaitRespLow => 60
  | .awaitRespHigh => 100
  | .awaitDataStart => 100
  | .bitSync => 80
  | .bitMeasure => 100
  | .checksum => 100

/-- The latest `T0` of each phase of a read, in microseconds after the accept, with `n` bits taken and steps of at most `d`: the
release comes at 20000 + (`d` - 1) at the latest, a reached wait ends by its bound less 1, and a bit cell takes 79 + 99. -/
def latestT0 (d : Nat) (p : Phase) (n : Nat) : Nat :=
  match p with
  | .idle => 0
  | .startSignal => 0
  | .awaitRespLow => 20000 + (d - 1)
  | .awaitRespHigh => 20059 + (d - 1)
  | .awaitDataStart => 20158 + (d - 1)
  | .bitSync => 20257 + (d - 1) + 178 * n
  | .bitMeasure => 20336 + (d - 1) + 178 * n
  | .checksum => 27278 + (d - 1)

theorem stayBound_le (p : Phase) : stayBound p ≤ 20000 := by
  cases p <;> decide

theorem stayBound_pos {p : Phase} (hp : p ≠ .idle) : 0 < stayBound p := by
  cases p with
  | idle => contradiction
  | _ => decide

theorem Wait.stayBound_eq {p : Phase} {l : Level} {b : Nat} (h : Wait p l b) : stayBound p = b := by
  cases h with
  | advance ha => cases ha <;> rfl
  | measure => rfl

/-- A wait that reaches its level loads `T0` in time for the next phase. -/
theorem Advance.latestT0_add_bound_le {p q : Phase} {l : Level} {b : Nat} (h : Advance p l b q) (d n : Nat) :
    latestT0 d p n + b ≤ latestT0 d q n + 1 := by
  cases h <;> simp only [latestT0] <;> omega

/-- With fewer than 40 bits taken in the loop, no phase of a read lasts past the latest end of the last data pulse. -/
theorem latestT0_add_stayBound_le (d : Nat) {p : Phase} {n : Nat} (hn : p = .bitSync ∨ p = .bitMeasure → n < 40) :
    latestT0 d p n + stayBound p ≤ 27378 + (d - 1) := by
  cases p with
  | bitSync =>
    have := hn (.inl rfl)
    simp only [latestT0, stayBound]
    omega
  | bitMeasure =>
    have := hn (.inr rfl)
    simp only [latestT0, stayBound]
    omega
  | _ =>
    simp only [latestT0, stayBound]
    omega

/-- Differences of Instants add up, as long as they do not wrap (R90). -/
theorem sub_toNat_add_of_lt {t0 t now : Instant} (h : (t - t0).toNat + (now - t).toNat < 2 ^ 32) :
    (now - t0).toNat = (t - t0).toNat + (now - t).toNat := by
  bv_omega

/-- A read that is busy at the Instant `t`, `a` microseconds after its accept, is no later than its phase allows. -/
structure Paced (d a : Nat) (t : Instant) (s : State) : Prop where
  inv : Inv s
  within : (t - s.t0).toNat < stayBound s.phase
  spent : a ≤ latestT0 d s.phase s.bitcnt.toNat + (t - s.t0).toNat

section
variable {d a : Nat} {t : Instant} {s u : State}

theorem Paced.after_consume (h : Paced d a t s) : Paced d a t (consume s) :=
  ⟨inv_consume h.inv, h.within, h.spent⟩

/-- Where `T0` has just been loaded, nothing of the phase's time is used up. -/
theorem paced_of_t0_eq (hi : Inv s) (ht : s.t0 = t) (hbusy : s.phase ≠ .idle)
    (ha : a ≤ latestT0 d s.phase s.bitcnt.toNat) : Paced d a t s where
  inv := hi
  within := by simpa [ht] using stayBound_pos hbusy
  spent := Nat.le_add_right_of_le ha

theorem paced_acceptRead (d : Nat) (s : State) : Paced d 0 (clockNow s) (acceptRead s) :=
  paced_of_t0_eq (inv_acceptRead s) rfl (by simp) (Nat.zero_le _)

/-- R161: in no phase can more than 27377 + (`d` - 1) microseconds have passed. -/
theorem Paced.le (h : Paced d a t s) : a ≤ 27377 + (d - 1) := by
  have hw := h.within
  have hs := h.spent
  have hp := latestT0_add_stayBound_le d h.inv.loop_not_full
  omega

/-- Up to the next sample the time after the accept and the elapsed time grow by the same step. -/
theorem Paced.spent_next (h : Paced d a t s) (hd : d ≤ 2 ^ 31) (hc : (clockNow s - t).toNat ≤ d) :
    a + (clockNow s - t).toNat ≤ latestT0 d s.phase s.bitcnt.toNat + (elapsed s).toNat := by
  have hw := h.within
  have hb := stayBound_le s.phase
  have hs := h.spent
  have he : (elapsed s).toNat = (t - s.t0).toNat + (clockNow s - t).toNat := sub_toNat_add_of_lt (by omega)
  omega

/-- Every step of a read that stays busy keeps it in its time. -/
theorem Paced.stepCase (h : Paced d a t s) (hu : StepCase s u) (hbusy : u.phase ≠ .idle) (hd1 : 1 ≤ d) (hd : d ≤ 2 ^ 31)
    (hc : (clockNow s - t).toNat ≤ d) : Paced d (a + (clockNow s - t).toNat) (clockNow s) u := by
  have hinv := hu.inv h.inv
  have hs := h.spent_next hd hc
  cases hu with
  | idle hp hs => exact absurd hp hbusy
  | accept hp hs => exact absurd h.within (by simp [hp, stayBound])
  | hold hp he => exact ⟨hinv, by rw [hp]; exact he, hs⟩
  | release hp he =>
    have hw := h.within
    have ha := h.spent
    simp only [hp, stayBound, latestT0] at hw ha
    exact paced_of_t0_eq hinv rfl hbusy (by simp only [enter_phase, latestT0]; omega)
  | pending hw he hl => exact ⟨hinv, hw.stayBound_eq ▸ he, hs⟩
  | timeout hw he => exact absurd rfl hbusy
  | advance ha he hl =>
    have hn := ha.latestT0_add_bound_le d s.bitcnt.toNat
    exact paced_of_t0_eq hinv rfl hbusy (by simp only [enter_phase, enter_bitcnt]; omega)
  | bit hp hb he hl =>
    have hlt := h.inv.loop_not_full (.inr hp)
    have hn : (shiftIn (classify (elapsed s)) s).bitcnt.toNat = s.bitcnt.toNat + 1 :=
      (shiftIn_shreg_lt _ h.inv.shreg_lt hlt).1
    simp only [hp, latestT0] at hs
    exact paced_of_t0_eq hinv rfl hbusy (by simp only [enter_phase, enter_bitcnt, hn, latestT0]; omega)
  | lastBit hp hb he hl =>
    simp only [hp, hb, latestT0] at hs
    refine ⟨hinv, he, ?_⟩
    show a + (clockNow s - t).toNat ≤ 27278 + (d - 1) + (elapsed s).toNat
    omega
  | ok hp hc => exact absurd rfl hbusy
  | mismatch hp hc => exact absurd rfl hbusy

/-- A read that is busy at every step of a run is in its time at the end of it. -/
theorem Paced.advance_le {es : List SampleEvent} (h : Paced d a t s) (hd1 : 1 ≤ d) (hd : d ≤ 2 ^ 31) (hes : s.events = es)
    (hr : noReset es) (hc : clockWithin d t es) (hbusy : ∀ k ≤ es.length, (after k s).phase ≠ .idle) :
    a + advance t es ≤ 27377 + (d - 1) := by
  induction es generalizing s t a with
  | nil => exact h.le
  | cons e es ih =>
    obtain ⟨hce, hces⟩ := hc
    obtain ⟨hre, hres⟩ := List.forall_mem_cons.mp hr
    have hev : event s = e := event_of_events s hes
    obtain ⟨u, hu, hnext⟩ := step_run_cases (hev ▸ hre) (step_eq_nextState s)
    have hlater : ∀ k ≤ es.length, (after k (consume u)).phase ≠ .idle := fun k hk =>
      hnext ▸ hbusy (k + 1) (Nat.succ_le_succ hk)
    have hclock : clockNow s = e.now := by rw [clockNow, hev]
    have hstep := h.stepCase hu (hlater 0 (Nat.zero_le _)) hd1 hd (hclock ▸ hce)
    rw [hclock] at hstep
    have htail : (consume u).events = es := by rw [← hnext, nextState_events, hes, List.tail_cons]
    calc a + advance t (e :: es)
        = a + (e.now - t).toNat + advance e.now es := (Nat.add_assoc ..).symm
      _ ≤ 27377 + (d - 1) := ih hstep.after_consume htail hres hces hlater

end

/-- Settles O54: the read is in its time after its accept, and `Paced.advance_le` carries that over the run. -/
theorem busyReadIsBoundedInTime : Obligations.BusyReadIsBoundedInTime := by
  intro s d e es hd1 hd hp he hr hs hnr hc hbusy
  have hev : event s = e := event_of_events s he
  have hnext : nextState s = consume (acceptRead s) := nextState_of_case (hev ▸ hr) (.accept hp (hev ▸ hs))
  have hpaced := (paced_acceptRead d s).after_consume
  rw [clockNow, hev, ← hnext] at hpaced
  have hlater : ∀ k ≤ es.length, (after k (nextState s)).phase ≠ .idle := fun k hk =>
    hbusy k _ hk (run_eq_after (k + 1) s)
  simpa using hpaced.advance_le hd1 hd (by rw [nextState_events, he, List.tail_cons]) hnr hc hlater

end Sys2Proof.Machine
end

section
/-! The command and the start signal (R80 to R84). -/

namespace Sys2Proof.Machine

open Sys2Proof.Safety

/-- Settles O11: `READ` answers `acceptRead`, which is also what the step makes of a request in `IDLE`. -/
theorem readWritesAllRegisters : Obligations.ReadWritesAllRegisters := by
  intro s
  refine ⟨acceptRead s, exec_eq_operate .read s, rfl, rfl, fun hp hr hs => ?step⟩
  rw [step_eq_nextState, nextState_of_case hr (.accept hp hs)]
  rfl

/-- Settles O12: the operation answers its own state, and the step is `step_idle`. -/
theorem idleWritesNothing : Obligations.IdleWritesNothing := fun s =>
  ⟨exec_eq_operate .idle s, step_idle⟩

/-- Settles O13: `start` only selects the operation, and outside `IDLE` it does not select either. -/
theorem startIgnoredWhileBusy : Obligations.StartIgnoredWhileBusy := by
  intro s e hp
  have hsame : nextState (sampling { e with start := true } s) =
      withInputs (nextState (sampling { e with start := false } s)) s.events (s.stepNo + 1) :=
    nextState_withInputs (s := sampling { e with start := false } s) (es := { e with start := true } :: s.events)
      rfl (operationOf_start_ignored hp true false) rfl rfl
  have hsteps : nextState (sampling { e with start := true } s) = nextState (sampling { e with start := false } s) :=
    hsame.trans (withInputs_eq_self (nextState_events _) (nextState_stepNo _))
  rw [step_eq_nextState, step_eq_nextState, hsteps]

/-- Settles O14: the test of the elapsed time fails. -/
theorem startSignalHolds : Obligations.StartSignalHolds := by
  intro s he
  refine ⟨?hold, (outputs_driveLow_iff s).mpr⟩
  rw [exec_eq_operate, operate]
  exact congrArg _ (if_neg (Nat.not_le.mpr he))

/-- Settles O15: the test of the elapsed time succeeds, and the ports are those of the first wait. -/
theorem startSignalReleases : Obligations.StartSignalReleases := by
  intro s he
  refine ⟨enter .awaitRespLow s, ?release, rfl, rfl, rfl, rfl⟩
  rw [exec_eq_operate, operate]
  exact congrArg _ (if_pos he)

end Sys2Proof.Machine
end

section
/-! The clock shift (R90; 95_test_vectors.md section 5 property 8). `shiftedBy c s` is the state whose `T0` and every `now` to
come are moved on by `c`: it has the elapsed times of `s`, so a step that is no reset does the same from both. -/

namespace Sys2Proof.Machine

open Sys2Proof.Safety

/-- `T0` and every listed `now` moved on by `c`. -/
def shiftedBy (c : Instant) (s : State) : State := { s with t0 := s.t0 + c, events := shiftClock c s.events }

section
variable {c : Instant} {s u : State}

theorem consume_shiftedBy : consume (shiftedBy c s) = shiftedBy c (consume s) := by
  simp [consume, shiftedBy, shiftClock]

/-! ### The inputs, as the shifted state samples them -/

/-- The sample event of the shifted state is the same but for its `now`. A free event is not moved: one must be listed. -/
theorem event_shiftedBy (h : s.events ≠ []) : event (shiftedBy c s) = { event s with now := (event s).now + c } := by
  obtain ⟨e, es, he⟩ := List.exists_cons_of_ne_nil h
  rw [event_of_events s he]
  exact event_of_events (es := shiftClock c es) _ (by rw [shiftedBy, he]; rfl)

theorem start_shiftedBy (h : s.events ≠ []) : (event (shiftedBy c s)).start = (event s).start := by
  rw [event_shiftedBy h]

theorem rst_shiftedBy (h : s.events ≠ []) : (event (shiftedBy c s)).rst = (event s).rst := by
  rw [event_shiftedBy h]

theorem lineSample_shiftedBy (h : s.events ≠ []) : lineSample (shiftedBy c s) = lineSample s := by
  rw [lineSample, event_shiftedBy h, lineSample]

theorem clockNow_shiftedBy (h : s.events ≠ []) : clockNow (shiftedBy c s) = clockNow s + c := by
  rw [clockNow, event_shiftedBy h, clockNow]

/-- A difference of Instants does not see the shift (R90). -/
theorem elapsed_shiftedBy (h : s.events ≠ []) : elapsed (shiftedBy c s) = elapsed s := by
  rw [elapsed, clockNow_shiftedBy h, elapsed]
  exact add_sub_add_right_eq_sub (clockNow s) s.t0 c

/-! ### The operations that load `T0`, from the shifted state -/

theorem acceptRead_shiftedBy (h : s.events ≠ []) : acceptRead (shiftedBy c s) = shiftedBy c (acceptRead s) := by
  rw [acceptRead, clockNow_shiftedBy h]
  rfl

theorem enter_shiftedBy (p : Phase) (h : s.events ≠ []) : enter p (shiftedBy c s) = shiftedBy c (enter p s) := by
  rw [enter, clockNow_shiftedBy h]
  rfl

/-! ### A step and a run from the shifted state -/

/-- The shifted state is in the same case of a step, and that case gives the shifted next state. -/
theorem StepCase.clockShift (hu : StepCase s u) (h : s.events ≠ []) :
    StepCase (shiftedBy c s) (shiftedBy c u) := by
  have he' := elapsed_shiftedBy (c := c) h
  have hl' := lineSample_shiftedBy (c := c) h
  cases hu with
  | idle hp hs => exact .idle hp (start_shiftedBy h ▸ hs)
  | accept hp hs => exact acceptRead_shiftedBy h ▸ .accept hp (start_shiftedBy h ▸ hs)
  | hold hp he => exact .hold hp (he' ▸ he)
  | release hp he => exact enter_shiftedBy _ h ▸ .release hp (he' ▸ he)
  | pending hw he hl => exact .pending hw (he' ▸ he) (hl' ▸ hl)
  | timeout hw he => exact .timeout hw (he' ▸ he)
  | advance ha he hl => exact enter_shiftedBy _ h ▸ .advance ha (he' ▸ he) (hl' ▸ hl)
  | bit hp hb he hl =>
    have hbit := StepCase.bit (s := shiftedBy c s) hp hb (he' ▸ he) (hl' ▸ hl)
    rw [he'] at hbit
    exact enter_shiftedBy (s := shiftIn _ s) _ h ▸ hbit
  | lastBit hp hb he hl =>
    have hbit := StepCase.lastBit (s := shiftedBy c s) hp hb (he' ▸ he) (hl' ▸ hl)
    rw [he'] at hbit
    exact hbit
  | ok hp hc => exact .ok hp hc
  | mismatch hp hc => exact .mismatch hp hc

theorem nextState_shiftedBy (h : s.events ≠ []) (hr : (event s).rst = false) :
    nextState (shiftedBy c s) = shiftedBy c (nextState s) := by
  obtain ⟨u, hu, hnext⟩ := step_run_cases hr (step_eq_nextState s)
  rw [nextState_of_case ((rst_shiftedBy h).trans hr) (hu.clockShift h), hnext, consume_shiftedBy]

theorem after_shiftedBy (k : Nat) (hk : k ≤ s.events.length) (hr : noReset s.events) :
    after k (shiftedBy c s) = shiftedBy c (after k s) := by
  induction k generalizing s with
  | zero => rfl
  | succ k ih =>
    obtain ⟨e, es, he⟩ := List.exists_cons_of_length_pos (Nat.zero_lt_of_lt hk)
    obtain ⟨hre, hres⟩ := List.forall_mem_cons.mp (he ▸ hr)
    have hnext : nextState (shiftedBy c s) = shiftedBy c (nextState s) :=
      nextState_shiftedBy (by simp [he]) (by rw [event_of_events s he, hre])
    have htail : (nextState s).events = es := by rw [nextState_events, he, List.tail_cons]
    have hlen : k ≤ es.length := by simpa [he] using hk
    rw [after, hnext, ih (htail ▸ hlen) (htail ▸ hres), after]

end

/-- Settles O56, by `StepCase.clockShift`. -/
theorem stepKeepsClockShift : Obligations.StepKeepsClockShift := by
  intro s t c h hr hst
  rw [step_next_iff] at hst
  subst hst
  exact (step_eq_nextState _).trans (congrArg _ (nextState_shiftedBy h hr))

/-- The accept loads `T0` (R81), so it needs no shift of the `T0` before it. -/
theorem nextState_accept_shiftClock {s : State} {e : SampleEvent} {es : List SampleEvent} (c : Instant) (hp : s.phase = .idle)
    (he : s.events = e :: es) (hr : e.rst = false) (hs : e.start = true) :
    nextState { s with events := shiftClock c s.events } = shiftedBy c (nextState s) := by
  have hshift : shiftClock c s.events = { e with now := e.now + c } :: shiftClock c es := by rw [he]; rfl
  rw [hshift, nextState_accept hp he hr hs]
  exact (nextState_accept (s := { s with events := { e with now := e.now + c } :: shiftClock c es }) hp rfl hr hs).trans rfl

/-- Settles O50: the state after the accept is shifted, and `after_shiftedBy` carries the shift over the run after it. -/
theorem readIsInvariantUnderClockShift : Obligations.ReadIsInvariantUnderClockShift := by
  intro s c e es k hp he hr hs hnr hk
  have htail : (nextState s).events = es := by rw [nextState_events, he, List.tail_cons]
  have hafter : after (k + 1) { s with events := shiftClock c s.events } = shiftedBy c (after (k + 1) s) := by
    rw [after, nextState_accept_shiftClock c hp he hr hs, after_shiftedBy k (htail ▸ hk) (htail ▸ hnr), after]
  exact ⟨after (k + 1) s, run_eq_after (k + 1) s, (run_next_iff _ _ _).mpr hafter⟩

end Sys2Proof.Machine
end

section
/-! The waits of the handshake (R90 to R95). -/

namespace Sys2Proof.Machine

/-- Settles O17: a difference of words is the difference of their numbers modulo `2^32`, and takes back an addition. -/
theorem elapsedIsModularDifference : Obligations.ElapsedIsModularDifference := by
  refine ⟨fun s => ?difference, fun s n hn h => ?advance⟩
  case difference =>
    have hlt := s.t0.isLt
    rw [elapsed, clockNow, BitVec.toNat_sub]
    congr 1
    omega
  case advance =>
    rw [elapsed, clockNow, h, add_sub_cancel_left, BitVec.toNat_ofNat, Nat.mod_eq_of_lt hn]

/-- A wait is reached exactly on the target level below the bound (R92). -/
theorem waitLevel_eq_reached_iff (target : Level) (bound : Nat) (s : State) (d : Duration) :
    waitLevel target bound s = .reached d ↔ d = elapsed s ∧ lineSample s = target ∧ d.toNat < bound := by
  constructor
  case mp =>
    intro h
    obtain ⟨h', -⟩ | ⟨h', hb, hl⟩ | ⟨h', -⟩ := waitLevel_cases target bound s <;> rw [h'] at h
    · contradiction
    · injection h with h
      subst h
      exact ⟨rfl, hl, hb⟩
    · contradiction
  case mpr =>
    rintro ⟨rfl, hl, hb⟩
    exact waitLevel_reached hb hl

/-- Settles O18, outcome by outcome. -/
theorem waitLevelOutcomes : Obligations.WaitLevelOutcomes := fun target bound s =>
  ⟨waitLevel_timedOut, waitLevel_reached, waitLevel_pending, waitLevel_eq_reached_iff target bound s⟩

section
variable {own next : Phase} {target : Level} {bound : Nat} {s : State}

theorem waitPhase_timedOut (h : bound ≤ (elapsed s).toNat) :
    waitPhase own target bound next s = raise (.timeout own) s := by
  rw [waitPhase, waitLevel_timedOut h]

theorem waitPhase_reached (h : (elapsed s).toNat < bound) (hl : lineSample s = target) :
    waitPhase own target bound next s = enter next s := by
  rw [waitPhase, waitLevel_reached h hl]

theorem waitPhase_pending (h : (elapsed s).toNat < bound) (hl : lineSample s ≠ target) :
    waitPhase own target bound next s = s := by
  rw [waitPhase, waitLevel_pending h hl]

end

/-- The three outcomes of an operation that is a wait which only advances (R93 to R95, R100), with the level that is not its
target named. -/
theorem exec_wait_outcomes {i : Instr} {own next : Phase} {target other : Level} {bound : Nat}
    (hx : ∀ s, exec i s = .next (waitPhase own target bound next s)) (hne : other ≠ target) (s : State) :
    (bound ≤ ((event s).now - s.t0).toNat →
      exec i s = .next { s with status := .timeout, failPhase := own.code, phase := .idle }) ∧
    (((event s).now - s.t0).toNat < bound → (event s).lineIn = target →
      exec i s = .next { s with t0 := (event s).now, phase := next }) ∧
    (((event s).now - s.t0).toNat < bound → (event s).lineIn = other → exec i s = .next s) := by
  rw [hx]
  refine ⟨fun h => ?timedOut, fun h hl => ?reached, fun h hl => ?pending⟩
  case timedOut => rw [waitPhase_timedOut h]; rfl
  case reached => rw [waitPhase_reached h hl]; rfl
  case pending => rw [waitPhase_pending h (hl.trans_ne hne)]

/-- Settles O19: `AWAIT_RESP_LOW` waits for a low line, 60 microseconds. -/
theorem awaitRespLowOutcomes : Obligations.AwaitRespLowOutcomes :=
  exec_wait_outcomes (exec_eq_operate .awaitRespLow) (by decide)

/-- Settles O20: `AWAIT_RESP_HIGH` waits for a high line, 100 microseconds. -/
theorem awaitRespHighOutcomes : Obligations.AwaitRespHighOutcomes :=
  exec_wait_outcomes (exec_eq_operate .awaitRespHigh) (by decide)

/-- Settles O21: `AWAIT_DATA_START` waits for a low line, 100 microseconds. -/
theorem awaitDataStartOutcomes : Obligations.AwaitDataStartOutcomes :=
  exec_wait_outcomes (exec_eq_operate .awaitDataStart) (by decide)

end Sys2Proof.Machine
end

section
/-! Every read ends (R97, R161, R164). A run over listed inputs does not look at the inputs after them, so the bound of
`busyReadIsBoundedInTime`, on reads that are busy until their inputs run out, also bounds a read whose inputs go on. -/

namespace Sys2Proof.Machine

open Sys2Proof.Safety

/-! ### Inputs after those of a run -/

/-- A run over listed inputs is the same whatever is listed after them. -/
theorem exists_runsOver (tape : List SampleEvent) (s : State) : ∃ u, RunsOver tape s u := by
  induction tape generalizing s with
  | nil => exact ⟨s, .nil s⟩
  | cons e es ih =>
    obtain ⟨u, hu⟩ := ih (nextState (sampling e s))
    have hfirst : RunsOver [e] s (nextState (sampling e s)) := fun rest n =>
      nextState_withInputs (s := sampling e s) (es := e :: rest) rfl rfl rfl rfl
    exact ⟨u, hfirst.append hu⟩

/-- The phase after `k` steps is decided by the registers and the first `k` inputs. -/
theorem after_phase_withInputs_take {s : State} {k m : Nat} (hk : k ≤ m) (hm : m ≤ s.events.length) (n : Nat) :
    (after k (withInputs s (s.events.take m) n)).phase = (after k s).phase := by
  obtain ⟨u, hu⟩ := exists_runsOver (s.events.take k) s
  have hlen : (s.events.take k).length = k := List.length_take_of_le (hk.trans hm)
  have hall := hu (s.events.drop k) s.stepNo
  have hcut := hu ((s.events.take m).drop k) n
  have htake : s.events.take k = (s.events.take m).take k := by rw [List.take_take, Nat.min_eq_left hk]
  rw [hlen, List.take_append_drop, withInputs_self] at hall
  rw [hlen, htake, List.take_append_drop] at hcut
  rw [hall, hcut]
  rfl

/-! ### One step a microsecond -/

/-- A clock that grows by 1 keeps the clock condition of R30 with `SAMPLE_STEP_MAX` = 1, and moves on by 1 an event. -/
theorem unitClock_within_advance {t : Instant} {es : List SampleEvent} (h : unitClock t es) :
    clockWithin 1 t es ∧ advance t es = es.length := by
  induction es generalizing t with
  | nil => exact ⟨trivial, rfl⟩
  | cons e es ih =>
    obtain ⟨he, hes⟩ := h
    obtain ⟨hwithin, hadvance⟩ := ih hes
    have hone : (e.now - t).toNat = 1 := by rw [he]; bv_omega
    exact ⟨⟨hone.le, hwithin⟩, by rw [advance, hone, hadvance, List.length_cons, Nat.add_comm]⟩

theorem unitClock_take {t : Instant} {es : List SampleEvent} (h : unitClock t es) (m : Nat) : unitClock t (es.take m) := by
  induction es generalizing t m with
  | nil => rw [List.take_nil]; trivial
  | cons e es ih =>
    cases m with
    | zero => trivial
    | succ m => exact ⟨h.1, ih h.2 m⟩

/-- With one step a microsecond and no reset a read is back in `IDLE` at the latest 27378 steps after its accept. -/
theorem exists_idle_after_read {s : State} {e : SampleEvent} {es : List SampleEvent} (hp : s.phase = .idle)
    (he : s.events = e :: es) (hr : e.rst = false) (hs : e.start = true) (hnr : noReset es) (hu : unitClock e.now es)
    (hlen : 27378 ≤ es.length) : ∃ k ≤ 27378, (after (k + 1) s).phase = .idle := by
  by_contra! hbusy
  have hcut : (es.take 27378).length = 27378 := List.length_take_of_le hlen
  obtain ⟨hwithin, hadvance⟩ := unitClock_within_advance (unitClock_take hu 27378)
  have hbound : advance e.now (es.take 27378) ≤ 27377 + (1 - 1) := by
    refine busyReadIsBoundedInTime (withInputs s (e :: es.take 27378) s.stepNo) 1 e (es.take 27378) le_rfl (by decide) hp rfl
      hr hs (fun e' he' => hnr e' (List.mem_of_mem_take he')) hwithin fun k t hk hrun => ?_
    rw [hcut] at hk
    have hsame := after_phase_withInputs_take (s := s) (k := k + 1) (m := 27378 + 1) (by omega)
      (by rw [he, List.length_cons]; omega) s.stepNo
    rw [he, List.take_succ_cons] at hsame
    rw [← (run_next_iff _ _ _).mp hrun, hsame]
    exact hbusy k hk
  omega

/-! ### The result of a read that has ended -/

/-- A step that ends a read leaves a result (R26). -/
theorem StepCase.result_of_idle {s u : State} (hu : StepCase s u) (hs : s.phase ≠ .idle) (hi : u.phase = .idle) :
    u.status = .ok ∨ u.status = .timeout ∨ u.status = .checksumMismatch := by
  obtain ⟨hp, -⟩ | ⟨-, -, -, hst⟩ | ⟨-, -, -, hst, -⟩ | ⟨hiff, -⟩ := hu.result
  · exact absurd hp hs
  · rw [hst]
    split
    · exact .inl rfl
    · exact .inr (.inr rfl)
  · exact .inr (.inl hst)
  · exact absurd (hiff.mpr hi) hs

/-- A run without a reset that is in `IDLE` at its end came there first with a result. -/
theorem exists_result_of_idle {s : State} {k : Nat} (hs : s.phase ≠ .idle) (hk : k ≤ s.events.length) (hr : noReset s.events)
    (hi : (after k s).phase = .idle) :
    ∃ j ≤ k, (after j s).phase = .idle ∧
      ((after j s).status = .ok ∨ (after j s).status = .timeout ∨ (after j s).status = .checksumMismatch) := by
  induction k generalizing s with
  | zero => exact absurd hi hs
  | succ k ih =>
    obtain ⟨e, es, he⟩ := List.exists_cons_of_length_pos (Nat.zero_lt_of_lt hk)
    obtain ⟨hre, hres⟩ := List.forall_mem_cons.mp (he ▸ hr)
    have htail : (nextState s).events = es := by rw [nextState_events, he, List.tail_cons]
    have hlen : k ≤ es.length := by simpa [he] using hk
    by_cases hn : (nextState s).phase = .idle
    case pos =>
      obtain ⟨u, hu, hnext⟩ := step_run_cases (by rw [event_of_events s he, hre]) (step_eq_nextState s)
      refine ⟨1, Nat.le_add_left 1 k, hn, ?_⟩
      rw [after, after, hnext]
      rw [hnext] at hn
      exact hu.result_of_idle hs hn
    case neg =>
      obtain ⟨j, hj, hend⟩ := ih hn (htail ▸ hlen) (htail ▸ hres) hi
      exact ⟨j + 1, Nat.succ_le_succ hj, hend⟩

/-- Settles O53: the read is back in `IDLE` in time, and when it first is, it holds a result. -/
theorem everyReadEndsInTime : Obligations.EveryReadEndsInTime := by
  intro s e es hp he hr hs hnr hu hlen
  obtain ⟨k, hk, hi⟩ := exists_idle_after_read hp he hr hs hnr hu hlen
  have htail : (nextState s).events = es := by rw [nextState_events, he, List.tail_cons]
  have hbusy : (nextState s).phase ≠ .idle := by
    rw [nextState_accept hp he hr hs]
    exact Phase.noConfusion
  obtain ⟨j, hj, hidle, hresult⟩ :=
    exists_result_of_idle hbusy (by rw [htail]; exact hk.trans hlen) (htail ▸ hnr) hi
  exact ⟨j, _, hj.trans hk, run_eq_after (j + 1) s, hidle, hresult⟩

end Sys2Proof.Machine
end

section
/-! The bit loop (R100 to R104): the outcomes of its two phases, and the order in which the shifted bits stand in the register,
which is the order of a buffer written at a cursor (90_conflicts.md C5). -/

namespace Sys2Proof.Machine

open Sys2Proof.Safety

/-! ### The two phases of a bit cell -/

/-- Settles O22: `BIT_SYNC` waits for a high line, 80 microseconds. -/
theorem bitSyncOutcomes : Obligations.BitSyncOutcomes :=
  exec_wait_outcomes (exec_eq_operate .bitSync) (by decide)

/-- The discriminator with its threshold as a number (R102). -/
theorem classify_eq_decide (d : Duration) : classify d = decide (48 < d.toNat) := rfl

/-- Settles O26: the two clauses are the two sides of the threshold. -/
theorem classifyAgainstThreshold : Obligations.ClassifyAgainstThreshold := fun d =>
  ⟨fun h => (classify_eq_decide d).trans (decide_eq_false h.not_gt), fun h => (classify_eq_decide d).trans (decide_eq_true h)⟩

section
variable {s : State}

theorem measured_timedOut (h : 100 ≤ (elapsed s).toNat) : measured s = raise (.timeout .bitMeasure) s := by
  rw [measured, waitLevel_timedOut h]

theorem measured_reached (h : (elapsed s).toNat < 100) (hl : lineSample s = .low) :
    measured s = takePulse (elapsed s) s := by
  rw [measured, waitLevel_reached h hl]

theorem measured_pending (h : (elapsed s).toNat < 100) (hl : lineSample s ≠ .low) : measured s = s := by
  rw [measured, waitLevel_pending h hl]

end

/-- A taken pulse in the plain arithmetic of the statements (R101 to R104). -/
theorem takePulse_eq (d : Duration) (s : State) :
    takePulse d s = { s with
      shreg := BitVec.ofNat 40 (2 * s.shreg.toNat + if 48 < d.toNat then 1 else 0)
      bitcnt := BitVec.ofNat 6 (s.bitcnt.toNat + 1)
      t0 := if s.bitcnt.toNat = 39 then s.t0 else (event s).now
      phase := if s.bitcnt.toNat = 39 then .checksum else .bitSync } := by
  have hshreg := shiftIn_shreg_eq_ofNat (classify d) s
  have hbitcnt := shiftIn_bitcnt_eq_ofNat (classify d) s
  simp only [classify_eq_decide, decide_eq_true_eq] at hshreg
  rw [← hshreg, ← hbitcnt]
  obtain ⟨hb, h⟩ | ⟨hb, h⟩ := takePulse_cases d s
  · rw [h, if_pos hb, if_pos hb]; rfl
  · rw [h, if_neg hb, if_neg hb]; rfl

/-- Settles O27: each outcome of the wait, with the taken pulse on both sides of the 40th bit. -/
theorem bitMeasureOutcomes : Obligations.BitMeasureOutcomes := by
  intro s
  rw [exec_eq_operate .bitMeasure s]
  refine ⟨fun h => ?timeout, fun h hl hb => ?round, fun h hl hb => ?last, fun h hl => ?pending⟩
  case timeout => exact congrArg _ (measured_timedOut h)
  case round =>
    have hpulse := (measured_reached h hl).trans (takePulse_eq (elapsed s) s)
    rw [if_neg hb.ne, if_neg hb.ne] at hpulse
    exact congrArg _ hpulse
  case last =>
    have hpulse := (measured_reached h hl).trans (takePulse_eq (elapsed s) s)
    rw [if_pos hb, if_pos hb, hb] at hpulse
    exact congrArg _ hpulse
  case pending => exact congrArg _ (measured_pending h (hl.trans_ne (by decide)))

/-! ### The shifted bits -/

/-- Shifting changes nothing but the register and the count, and it counts every bit (R103, R104). -/
theorem foldl_shiftIn_eq (s : State) (bits : List Bool) :
    bits.foldl (fun u b => shiftIn b u) s = { s with
      shreg := (bits.foldl (fun u b => shiftIn b u) s).shreg
      bitcnt := s.bitcnt + BitVec.ofNat 6 bits.length } := by
  induction bits generalizing s with
  | nil => simp
  | cons b bits ih =>
    have hcount : s.bitcnt + 1 + BitVec.ofNat 6 bits.length = s.bitcnt + BitVec.ofNat 6 (bits.length + 1) := by
      rw [BitVec.ofNat_add, add_assoc, add_comm (BitVec.ofNat 6 bits.length)]
      rfl
    refine (ih (shiftIn b s)).trans ?_
    rw [shiftIn_bitcnt, hcount]
    rfl

/-- Settles O28: the register bit by bit is `foldl_shiftIn_getLsbD`, over a register that was 0. -/
theorem shiftsKeepBitsInOrder : Obligations.ShiftsKeepBitsInOrder := by
  intro s bits hshreg hbitcnt hlen
  refine ⟨(bits.foldl (fun u b => shiftIn b u) s).shreg, ?frame, fun k hk => ?bits, fun j hj => ?above⟩
  case frame => rw [foldl_shiftIn_eq, hbitcnt]; simp
  case bits =>
    have hin : bits.length - 1 - k < bits.length := by omega
    have hpos : bits.length - 1 - (bits.length - 1 - k) = k := by omega
    rw [foldl_shiftIn_getLsbD s bits (by omega), if_pos hin, hpos]
  case above =>
    by_cases hj40 : j < 40
    · rw [foldl_shiftIn_getLsbD s bits hj40, if_neg hj.not_gt, hshreg]
      exact BitVec.getLsbD_zero
    · exact BitVec.getLsbD_of_ge _ _ (Nat.not_lt.mp hj40)

/-! ### The buffer written at a cursor -/

/-- The word that one store puts into a byte has the bit stored at the place `n` and zeros elsewhere. -/
theorem setWidth_ofBool_shiftLeft_getLsbD (b : Bool) (n : Nat) {j : Nat} (hj : j < 8) :
    ((BitVec.ofBool b).setWidth 8 <<< n).getLsbD j = (decide (j = n) && b) := by
  rw [BitVec.getLsbD_shiftLeft, BitVec.getLsbD_setWidth, BitVec.getLsbD_ofBool]
  obtain hlt | rfl | hgt := lt_trichotomy j n
  · simp [hlt, hlt.ne]
  · simp [hj]
  · simp [Nat.sub_ne_zero_of_lt hgt, hgt.ne']

/-- One store sets the bit under the cursor and leaves every other bit of the buffer: bit `j` of byte `i` is at the cursor
`8 * i + (7 - j)` (R103). -/
theorem storeAtCursor_getLsbD (buffer : List Byte) {cursor : Nat} (b : Bool) (hc : cursor / 8 < buffer.length) (i : Nat)
    {j : Nat} (hj : j < 8) :
    ((storeAtCursor (buffer, cursor) b).1.getD i 0).getLsbD j =
      if 8 * i + (7 - j) = cursor then (buffer.getD i 0).getLsbD j || b else (buffer.getD i 0).getLsbD j := by
  by_cases hi : cursor / 8 = i
  case pos =>
    subst hi
    have hbyte : (storeAtCursor (buffer, cursor) b).1.getD (cursor / 8) 0 =
        buffer.getD (cursor / 8) 0 ||| (BitVec.ofBool b).setWidth 8 <<< (7 - cursor % 8) := by
      simp [storeAtCursor, hc]
    rw [hbyte, BitVec.getLsbD_or, setWidth_ofBool_shiftLeft_getLsbD b _ hj]
    by_cases hk : j = 7 - cursor % 8
    · rw [if_pos (by omega), decide_eq_true hk, Bool.true_and]
    · rw [if_neg (by omega), decide_eq_false hk, Bool.false_and, Bool.or_false]
  case neg =>
    have hbyte : (storeAtCursor (buffer, cursor) b).1.getD i 0 = buffer.getD i 0 := by
      simp [storeAtCursor, List.getD_eq_getElem?_getD, List.getElem?_modify_ne, hi]
    rw [hbyte, if_neg (by omega)]

/-- The buffer after a whole list of bits, bit by bit: the `k`-th bit stored is at the cursor `k`, and the cursor has moved on
over the list (R103). -/
theorem foldl_storeAtCursor (bits : List Bool) (hlen : bits.length ≤ 40) :
    ∃ buffer : List Byte, bits.foldl storeAtCursor (List.replicate 5 0, 0) = (buffer, bits.length) ∧ buffer.length = 5 ∧
      ∀ i j, j < 8 → (buffer.getD i 0).getLsbD j = bits.getD (8 * i + (7 - j)) false := by
  induction bits using List.reverseRecOn with
  | nil =>
    refine ⟨List.replicate 5 0, rfl, rfl, fun i j _ => ?_⟩
    rw [List.getD_eq_getElem?_getD, List.getElem?_getD_replicate_default_eq, List.getD_nil]
    exact BitVec.getLsbD_zero
  | append_singleton bits b ih =>
    rw [List.length_append, List.length_singleton] at hlen
    obtain ⟨buffer, hfold, hbuffer, hbits⟩ := ih (by omega)
    refine ⟨(storeAtCursor (buffer, bits.length) b).1, ?_, ?_, fun i j hj => ?_⟩
    · rw [List.foldl_append, hfold, List.length_append]; rfl
    · simp [storeAtCursor, hbuffer]
    · rw [storeAtCursor_getLsbD buffer b (by omega) i hj, hbits i j hj]
      obtain hlt | heq | hgt := lt_trichotomy (8 * i + (7 - j)) bits.length
      · rw [if_neg hlt.ne, List.getD_append _ _ _ _ hlt]
      · rw [if_pos heq, heq]; simp
      · rw [if_neg hgt.ne', List.getD_eq_default _ _ hgt.le, List.getD_eq_default _ _ (by simpa using hgt)]

/-- Settles O55: bit `j` of byte `i` is, on both sides, the bit received at the cursor `8 * i + (7 - j)`. -/
theorem shiftRegisterEqualsCursorBuffer : Obligations.ShiftRegisterEqualsCursorBuffer := by
  intro s bits hlen
  obtain ⟨buffer, hfold, hbuffer, hbits⟩ := foldl_storeAtCursor bits hlen.le
  rw [hfold, hlen]
  congr 1
  refine List.ext_getElem (by simp [hbuffer]) fun i hi _ => BitVec.eq_of_getLsbD_eq fun j hj => ?_
  have hpos : 32 - 8 * i + j = 39 - (8 * i + (7 - j)) := by omega
  rw [← List.getD_eq_getElem buffer 0 hi, hbits i j hj, List.getElem_map, List.getElem_finRange, frameByte_getLsbD _ _ _ hj]
  exact (foldl_shiftIn_getLsbD_of_forty s (by omega) hlen).symm.trans (by rw [← hpos]; rfl)

end Sys2Proof.Machine
end

section
/-! The checksum and the result (R115 to R122): the sum in the arithmetic of bytes, one received byte at a time in the frame, and
what the ports show of a successful read. -/

namespace Sys2Proof.Machine

open Sys2Proof.Safety

/-! ### The modular sum (R115) -/

/-- Reduction modulo 256 commutes with addition, so the sum is that of an 8-bit adder without carry. -/
theorem csum_eq_add (f : Frame) : csum f = frameByte f 0 + frameByte f 1 + frameByte f 2 + frameByte f 3 := by
  simp only [csum, BitVec.ofNat_add, BitVec.ofNat_toNat, BitVec.setWidth_eq]

/-- Settles O32: the exact sum by the bytes as numbers, the eight-bit one by `csum_eq_add`. -/
theorem checksumIsModularSum : Obligations.ChecksumIsModularSum := by
  intro f
  obtain ⟨hb0, hb1, hb2, hb3, -⟩ := frameBytes f
  refine ⟨?_, csum_eq_add f⟩
  rw [csum, BitVec.toNat_ofNat, hb0, hb1, hb2, hb3]

/-- Settles O34: the model's comparison in plain arithmetic is `csum_eq_frameByte_iff`. -/
theorem checksumOutcomes : Obligations.ChecksumOutcomes := by
  intro s
  simp only [← csum_eq_frameByte_iff, ne_eq, exec_eq_operate, operate, ← csumMatches_iff]
  exact ⟨fun h => congrArg _ (if_pos h), fun h => congrArg _ (if_neg h)⟩

/-! ### A single flipped bit (R119) -/

/-- Of two frames that pass the checksum and agree in every byte but one, that byte is the same too: it can be solved for. -/
theorem frameByte_eq_of_csum_eq {f g : Frame} (i : Fin 5) (hf : csum f = frameByte f 4) (hg : csum g = frameByte g 4)
    (h : ∀ j, j ≠ i → frameByte g j = frameByte f j) : frameByte g i = frameByte f i := by
  rw [csum_eq_add] at hf hg
  have balance : (frameByte g 0 - frameByte f 0) + (frameByte g 1 - frameByte f 1) + (frameByte g 2 - frameByte f 2) +
      (frameByte g 3 - frameByte f 3) = frameByte g 4 - frameByte f 4 := by
    linear_combination hg - hf
  have zero : ∀ j, j ≠ i → frameByte g j - frameByte f j = 0 := fun j hj => sub_eq_zero.mpr (h j hj)
  apply eq_of_sub_eq_zero
  fin_cases i <;> simpa [zero, eq_comm] using balance

/-- A flipped bit leaves every byte that does not hold it as it was. -/
theorem frameByte_flip_of_ne (f : Frame) {i : Nat} (hi : i < 40) {j : Fin 5} (hj : j.val ≠ 4 - i / 8) :
    frameByte (f ^^^ BitVec.twoPow 40 i) j = frameByte f j := by
  refine BitVec.eq_of_getLsbD_eq fun k hk => ?_
  have hne : i ≠ 32 - 8 * j.val + k := by omega
  rw [frameByte_getLsbD _ _ _ hk, frameByte_getLsbD _ _ _ hk, BitVec.getLsbD_xor, BitVec.getLsbD_twoPow,
    decide_eq_false hne, Bool.and_false, Bool.xor_false]

/-- A flipped bit changes the byte that holds it. -/
theorem frameByte_flip_ne (f : Frame) {i : Nat} (hi : i < 40) {j : Fin 5} (hj : j.val = 4 - i / 8) :
    frameByte (f ^^^ BitVec.twoPow 40 i) j ≠ frameByte f j := by
  intro h
  have hpos : 32 - 8 * j.val + i % 8 = i := by omega
  have hbit := congrArg (·.getLsbD (i % 8)) h
  simp only [frameByte_getLsbD _ _ _ (Nat.mod_lt i (by decide : 8 > 0)), hpos, BitVec.getLsbD_xor,
    BitVec.getLsbD_twoPow, hi, decide_true, Bool.and_self, Bool.xor_true] at hbit
  exact Bool.not_ne_self _ hbit

/-- Settles O33: were both frames to pass, the byte with the flipped bit would be the same in both. -/
theorem singleBitFlipFailsChecksum : Obligations.SingleBitFlipFailsChecksum := by
  intro f i hi hf hg
  have same : frameByte (f ^^^ BitVec.twoPow 40 i) ⟨4 - i / 8, by omega⟩ = frameByte f ⟨4 - i / 8, by omega⟩ :=
    frameByte_eq_of_csum_eq _ hf hg fun j hj => frameByte_flip_of_ne f hi fun h => hj (Fin.ext h)
  exact frameByte_flip_ne f hi rfl same

/-! ### The Reading (R117, R120) -/

/-- What the ports show at the end of a successful read: the Reading, and no diagnostic (R33 to R38). -/
theorem outputs_of_ok {s : State} (hp : s.phase = .idle) (hs : s.status = .ok) :
    outputs s =
      ⟨false, false, false, false, true, 1, true, frameByte s.shreg 0, frameByte s.shreg 2, s.failPhase, 0, 0, 0⟩ := by
  simp [outputs, hp, hs, Status.code]

/-- The ports are functions of the registers (R32). -/
theorem outputs_withInputs (s : State) (es : List SampleEvent) (n : Nat) : outputs (withInputs s es n) = outputs s := rfl

/-- Settles O47: `reading_valid` says that `STATUS` is `OK`, of which the invariant says the rest. -/
theorem readingComesFromCheckedFrame : Obligations.ReadingComesFromCheckedFrame := by
  intro s h hv
  have hok : s.status = .ok := (outputs_readingValid_iff s).mp hv
  have hidle : s.phase = .idle := h.result_only_idle (by simp [hok])
  have hfail : s.failPhase = 0 := h.failPhase_zero (by simp [hok])
  obtain ⟨hcount, hsum⟩ := h.ok_checked hok
  rw [outputs_of_ok hidle hok]
  exact ⟨hidle, hcount, hsum, rfl, rfl, hfail⟩

/-- Settles O48: every one of the `k` samples leaves `IDLE` as it is, which is `after_stay`. -/
theorem resultStaysUntilNextRead : Obligations.ResultStaysUntilNextRead := by
  intro s k hp hk hquiet
  have hlen : (s.events.take k).length = k := List.length_take_of_le hk
  have hstay := after_stay (s := s) (List.take_append_drop k s.events).symm fun e he =>
    have ⟨hr, hs⟩ := hquiet e (List.mem_of_mem_take he)
    ⟨hr, fun es n hev => .idle hp (hev ▸ hs)⟩
  rw [hlen] at hstay
  exact ⟨_, (run_next_iff k s _).mpr hstay, rfl, outputs_withInputs s _ _⟩

/-! ### Received bytes (R121) -/

theorem byteBits_getD (b : Byte) {k : Nat} (hk : k < 8) : (byteBits b).getD k false = b.getLsbD (7 - k) := by
  simp [byteBits, hk]

theorem byteBits_length (b : Byte) : (byteBits b).length = 8 := by simp [byteBits]

section
variable (s : State) (b : Byte)

/-- A byte received most significant bit first is the fifth of the frame (R42). -/
theorem frameByte_foldl_byteBits_four : frameByte ((byteBits b).foldl (fun u b => shiftIn b u) s).shreg 4 = b := by
  refine BitVec.eq_of_getLsbD_eq fun j hj => ?_
  have hpos : 32 - 8 * (4 : Fin 5).val + j = j := Nat.zero_add j
  rw [frameByte_getLsbD _ _ _ hj, hpos, foldl_shiftIn_getLsbD _ _ (by omega), byteBits_length, if_pos hj,
    byteBits_getD _ (by omega)]
  congr 1
  omega

/-- A received byte moves the bytes before it up by one (R42). -/
theorem frameByte_foldl_byteBits_of_succ {i j : Fin 5} (hij : j.val = i.val + 1) :
    frameByte ((byteBits b).foldl (fun u b => shiftIn b u) s).shreg i = frameByte s.shreg j := by
  refine BitVec.eq_of_getLsbD_eq fun k hk => ?_
  have hpos : 32 - 8 * i.val + k - 8 = 32 - 8 * j.val + k := by omega
  rw [frameByte_getLsbD _ _ _ hk, frameByte_getLsbD _ _ _ hk, foldl_shiftIn_getLsbD _ _ (by omega), byteBits_length,
    if_neg (by omega), hpos]

end

/-- Five received bytes are the five bytes of the frame, in their order (R11, R42). -/
theorem frameByte_foldl_five_bytes (s : State) (b0 b1 b2 b3 b4 : Byte) {f : Frame}
    (hf : f = ((byteBits b0 ++ byteBits b1 ++ byteBits b2 ++ byteBits b3 ++ byteBits b4).foldl
      (fun u b => shiftIn b u) s).shreg) :
    frameByte f 0 = b0 ∧ frameByte f 1 = b1 ∧ frameByte f 2 = b2 ∧ frameByte f 3 = b3 ∧ frameByte f 4 = b4 := by
  have up01 := frameByte_foldl_byteBits_of_succ (i := 0) (j := 1) (hij := rfl)
  have up12 := frameByte_foldl_byteBits_of_succ (i := 1) (j := 2) (hij := rfl)
  have up23 := frameByte_foldl_byteBits_of_succ (i := 2) (j := 3) (hij := rfl)
  have up34 := frameByte_foldl_byteBits_of_succ (i := 3) (j := 4) (hij := rfl)
  simp only [hf, List.foldl_append, up01, up12, up23, up34, frameByte_foldl_byteBits_four, and_self]

/-- Settles O52: the frame holds the five bytes, so the checksum passes and the ports show the Reading. -/
theorem roundTripOfFourBytes : Obligations.RoundTripOfFourBytes := by
  intro s w rest b0 b1 b2 b3 hp he hw hbits
  obtain ⟨t, hrun, hidle, -, hfail, hframe, hstatus⟩ := runsOver_waveform hp hw
  rw [hbits] at hframe
  obtain ⟨hb0, hb1, hb2, hb3, hb4⟩ := frameByte_foldl_five_bytes _ b0 b1 b2 b3 (b0 + b1 + b2 + b3) hframe
  have hsum : csum t.shreg = frameByte t.shreg 4 := by rw [csum_eq_add, hb0, hb1, hb2, hb3, hb4]
  have hports := outputs_of_ok hidle (hstatus.trans (if_pos hsum))
  rw [hb0, hb2, hfail] at hports
  refine ⟨_, hrun.run_eq he, ?_⟩
  rw [outputs_withInputs, hports]
  exact ⟨rfl, rfl, rfl, rfl, rfl, rfl, rfl, rfl⟩

end Sys2Proof.Machine
end

section
/-! The failures of a read (R126, R130, R131): what each writes and shows, and the wait that ends in a timeout as a whole stay
(95_test_vectors.md X3). -/

namespace Sys2Proof.Machine

open Sys2Proof.Safety

/-! ### A wait that times out -/

/-- The five waits as the statements list them: phase, target level, bound. -/
theorem wait_of_mem {p : Phase} {l : Level} {b : Nat}
    (h : (p, l, b) ∈
      [(Phase.awaitRespLow, Level.low, 60), (Phase.awaitRespHigh, Level.high, 100), (Phase.awaitDataStart, Level.low, 100),
        (Phase.bitSync, Level.high, 80), (Phase.bitMeasure, Level.low, 100)]) : Wait p l b := by
  simp only [List.mem_cons, Prod.mk.injEq, List.not_mem_nil, or_false] at h
  obtain ⟨rfl, rfl, rfl⟩ | ⟨rfl, rfl, rfl⟩ | ⟨rfl, rfl, rfl⟩ | ⟨rfl, rfl, rfl⟩ | ⟨rfl, rfl, rfl⟩ := h
  · exact .advance .respLow
  · exact .advance .respHigh
  · exact .advance .dataStart
  · exact .advance .sync
  · exact .measure

theorem stay_tape_length (w : Stay) : w.tape.length = w.pending.length + 1 := by simp [Stay.tape]

section
variable {s : State} {w : Stay} {rest : List SampleEvent} {l : Level} {b : Nat}

/-- Every stretch of the pending samples of a wait leaves the registers as they are (R91). -/
theorem after_waits (hw : Wait s.phase l b) (he : s.events = w.tape ++ rest) (h : w.waits l b s.t0) {k : Nat}
    (hk : k ≤ w.pending.length) : after k s = withInputs s (s.events.drop k) (s.stepNo + k) := by
  have hle : k ≤ s.events.length := by rw [he, List.length_append, stay_tape_length]; omega
  have htake : s.events.take k = w.pending.take k := by
    rw [he, Stay.tape, List.append_assoc, List.take_append_of_le_length hk]
  have hstay := after_stay (s := s) (List.take_append_drop k s.events).symm fun e hmem =>
    stays_of_waits hw h e (List.mem_of_mem_take (htake ▸ hmem))
  rwa [List.length_take_of_le hle] at hstay

/-- One whole wait that does not reach its level in time (R91, R92). -/
theorem after_timesOut (hw : Wait s.phase l b) (he : s.events = w.tape ++ rest) (h : w.timesOut l b s.t0) :
    after w.tape.length s = withInputs (raise (.timeout s.phase) s) rest (s.stepNo + w.tape.length) := by
  obtain ⟨hpending, hr, hb⟩ := h
  refine after_stay_case he (stays_of_waits hw hpending) hr fun es n hev => .timeout (s := withInputs s es n) hw ?_
  show b ≤ ((event (withInputs s es n)).now - s.t0).toNat
  rwa [hev]

end

/-- Settles O23: the pending samples by `after_waits`, the step at the bound by `after_timesOut`. -/
theorem timeoutIsAttributedToItsPhase : Obligations.TimeoutIsAttributedToItsPhase := by
  rintro s w rest _ target bound hmem rfl he h
  have hw := wait_of_mem hmem
  refine ⟨fun k hk => ⟨_, run_eq_after k s, after_waits hw he h.1 hk⟩, ?_⟩
  rw [run_next_iff, ← stay_tape_length, after_timesOut hw he h, stay_tape_length]
  rfl

/-! ### What the ports show of a failed read -/

/-- What the ports show after a timeout: the register `FAIL_PHASE`, and nothing of the frame (R33 to R38). -/
theorem outputs_of_timeout {s : State} (hp : s.phase = .idle) (hs : s.status = .timeout) :
    outputs s = ⟨false, false, false, false, true, 2, false, 0, 0, s.failPhase, 0, 0, 0⟩ := by
  simp [outputs, hp, hs, Status.code]

/-- What the ports show after a checksum mismatch: the frame and the two checksums, and no Reading (R33 to R38). -/
theorem outputs_of_checksumMismatch {s : State} (hp : s.phase = .idle) (hs : s.status = .checksumMismatch) :
    outputs s =
      ⟨false, false, false, false, true, 3, false, 0, 0, s.failPhase, s.shreg, frameByte s.shreg 4, csum s.shreg⟩ := by
  simp [outputs, hp, hs, Status.code]

/-- Settles O35, for every phase `p`: the ports are those of `IDLE` with `STATUS` `TIMEOUT`. -/
theorem raiseTimeoutEffect : Obligations.RaiseTimeoutEffect := fun s p _ =>
  ⟨rfl, outputs_of_timeout (raise_timeout_phase s p) (raise_timeout_status s p)⟩

/-- Settles O36: the ports are those of `IDLE` with `STATUS` `CHECKSUM_MISMATCH`, over the frame that the failure keeps. -/
theorem raiseChecksumMismatchEffect : Obligations.RaiseChecksumMismatchEffect := fun s =>
  ⟨rfl, outputs_of_checksumMismatch (raise_checksumMismatch_phase s) (raise_checksumMismatch_status s)⟩

end Sys2Proof.Machine
end

section
/-! Reset and the hazards of the clock (R150, R158, R163; 93_implementation_defined.md I8, I9). The stays with nothing to end them
are written as `RunsOver`, so that an accept before them and a release after them are put to them by `RunsOver.append`. -/

namespace Sys2Proof.Machine

open Sys2Proof.Safety

/-! ### Reset (R150) -/

/-- Settles O10: the step is `nextState_reset`, and after it `IDLE` holds by `step_idle`. -/
theorem resetWinsOverEverything : Obligations.ResetWinsOverEverything := by
  intro s hr
  refine ⟨consume (resetRegisters s), ?reset, rfl, rfl, step_idle rfl⟩
  rw [step_eq_nextState, nextState_reset hr]

/-! ### A clock that goes back (R158) -/

/-- A clock behind `T0` is read as a long time after it. -/
theorem le_elapsed_of_now_before_t0 {t0 now : Instant} {n : Nat} (h1 : 1 ≤ n) (hn : n ≤ 2 ^ 31)
    (h : now = t0 - BitVec.ofNat 32 n) : 2 ^ 31 ≤ (now - t0).toNat := by
  subst h
  bv_omega

/-- Settles O25: the elapsed time is beyond the start signal and beyond every bound. -/
theorem backwardClockEndsTheWait : Obligations.BackwardClockEndsTheWait := by
  intro s n h1 hn hback
  have hlong := le_elapsed_of_now_before_t0 h1 hn hback
  obtain ⟨_, hrelease, rfl, -⟩ := startSignalReleases s (by omega)
  exact ⟨hrelease, (awaitRespLowOutcomes s).1 (by omega), (awaitRespHighOutcomes s).1 (by omega),
    (awaitDataStartOutcomes s).1 (by omega), (bitSyncOutcomes s).1 (by omega), (bitMeasureOutcomes s).1 (by omega)⟩

/-! ### Stays that nothing ends -/

/-- The start signal stays whatever the line, while the elapsed time is below 20000 (R83). -/
theorem runsOver_hold {s : State} {es : List SampleEvent} (hp : s.phase = .startSignal)
    (h : ∀ e ∈ es, e.rst = false ∧ (e.now - s.t0).toNat < 20000) : RunsOver es s s := by
  refine fun rest n => after_stay (s := withInputs s (es ++ rest) n) rfl fun e he => ?_
  obtain ⟨hr, hb⟩ := h e he
  refine ⟨hr, fun es' m hev => .hold hp ?_⟩
  rw [elapsed, clockNow, hev]
  exact hb

/-- A wait stays over its pending samples (R91). -/
theorem runsOver_waits {s : State} {w : Stay} {l : Level} {b : Nat} (hw : Wait s.phase l b) (h : w.waits l b s.t0) :
    RunsOver w.pending s s :=
  fun rest n => after_stay (s := withInputs s (w.pending ++ rest) n) rfl (stays_of_waits hw h)

/-- A run over all the listed inputs that leaves the registers as they are. -/
theorem RunsOver.run_all {s : State} (h : RunsOver s.events s s) :
    run s.events.length s = .next { s with events := [], stepNo := s.stepNo + s.events.length } :=
  h.run_eq (List.append_nil _).symm

/-- Settles O24: at one Instant the elapsed time never grows, so every sample is one that stays. -/
theorem stoppedClockHangsTheRead : Obligations.StoppedClockHangsTheRead := by
  refine ⟨fun s now hp hb hes => ?start, ?wait⟩
  case start =>
    have hstay : RunsOver s.events s s := runsOver_hold hp fun e he => by
      obtain ⟨hr, rfl⟩ := hes e he
      exact ⟨hr, hb⟩
    exact ⟨_, hstay.run_all, rfl, by simp [hp], by simp [hp]⟩
  case wait =>
    rintro s _ target bound now hmem rfl hb hes
    have hw := wait_of_mem hmem
    have hwaits : Stay.waits ⟨s.events, quietEvent now⟩ target bound s.t0 := fun e he => by
      obtain ⟨hr, hl, rfl⟩ := hes e he
      exact ⟨hr, hl, hb⟩
    refine ⟨_, (runsOver_waits hw hwaits).run_all, rfl, by simpa using hw.ne_idle, ?_⟩
    rw [Bool.eq_false_iff, ne_eq, outputs_driveLow_iff]
    rcases hw.phases with hp | hp | hp | hp | hp <;> simp [hp]

/-! ### The start signal at one step a microsecond (R163) -/

theorem unitClock_getElem {t : Instant} {es : List SampleEvent} (h : unitClock t es) {k : Nat} (hk : k < es.length) :
    es[k].now = t + BitVec.ofNat 32 (k + 1) := by
  induction es generalizing t k with
  | nil => contradiction
  | cons e es ih =>
    obtain ⟨he, hes⟩ := h
    cases k with
    | zero => exact he
    | succ k =>
      rw [List.getElem_cons_succ, ih hes, he]
      bv_omega

/-- The first `k` samples come at most `k` microseconds after the Instant before them. -/
theorem unitClock_elapsed_le {t : Instant} {es : List SampleEvent} (h : unitClock t es) {k : Nat} {e : SampleEvent}
    (he : e ∈ es.take k) : (e.now - t).toNat ≤ k := by
  obtain ⟨i, hi, rfl⟩ := List.mem_take_iff_getElem.mp he
  rw [unitClock_getElem h, add_sub_cancel_left, BitVec.toNat_ofNat]
  omega

/-- The first `k` samples after an accept, `k` below 20000, hold the start signal. -/
theorem unitClock_holds {t : Instant} {es : List SampleEvent} (hr : noReset es) (hu : unitClock t es) {k : Nat}
    (hk : k < 20000) : ∀ e ∈ es.take k, e.rst = false ∧ (e.now - t).toNat < 20000 := fun e he =>
  ⟨hr e (List.mem_of_mem_take he), (unitClock_elapsed_le hu he).trans_lt hk⟩

/-- The first 20000 samples after an accept are one whole start signal. -/
theorem exists_holdsStart_of_unitClock {t : Instant} {es : List SampleEvent} (hr : noReset es) (hu : unitClock t es)
    (hlen : 20000 ≤ es.length) : ∃ w : Stay, w.tape = es.take 20000 ∧ w.last.now = t + 20000 ∧ w.holdsStart t := by
  have hnow : es[19999].now = t + 20000 := unitClock_getElem hu (by omega)
  refine ⟨⟨es.take 19999, es[19999]⟩, List.take_append_getElem (by omega), hnow, unitClock_holds hr hu (by decide),
    hr _ (List.getElem_mem _), ?_⟩
  rw [hnow, add_sub_cancel_left]
  decide

/-- A run over the first listed input and `n` more. -/
theorem RunsOver.run_take {s u : State} {e : SampleEvent} {es : List SampleEvent} {n : Nat}
    (h : RunsOver ([e] ++ es.take n) s u) (he : s.events = e :: es) (hn : n ≤ es.length) :
    run (n + 1) s = .next (withInputs u (es.drop n) (s.stepNo + (n + 1))) := by
  have hsplit : s.events = [e] ++ es.take n ++ es.drop n := by simp [he]
  simpa [List.length_take_of_le hn] using h.run_eq hsplit

/-- Settles O16: the accept, then the samples that hold the start signal, or the whole of it. -/
theorem startSignalLastsTwentyMilliseconds : Obligations.StartSignalLastsTwentyMilliseconds := by
  intro s e es hp he hr hs hnr hu hlen
  have haccept := runsOver_accept hp hr hs
  constructor
  case left =>
    intro k hk
    have hhold := haccept.append (runsOver_hold rfl (unitClock_holds hnr hu hk))
    exact ⟨_, hhold.run_take he (by omega), rfl, rfl⟩
  case right =>
    obtain ⟨w, htape, hnow, hw⟩ := exists_holdsStart_of_unitClock hnr hu hlen
    have hwhole := haccept.append (runsOver_holdsStart rfl hw)
    rw [htape] at hwhole
    exact ⟨_, hwhole.run_take he hlen, rfl, hnow, rfl, rfl⟩

end Sys2Proof.Machine
end

section
/-! A word of the opcode table placed for the next step (log entry 6): `withFetchWord` says which inputs and which phase the step
finds, and the table's decoder (R61, R62) reads from the word the operation which that phase and request select. -/

namespace Sys2Proof

/-- The one word of the format `CMD` is the request (R61). -/
theorem decodeTableWord_cmd {nbits w : Nat} {i : Instr} (hf : formatOfWidth nbits = .cmd)
    (h : decodeTableWord nbits w = some i) : w = 1 ∧ i = .read := by
  simp only [decodeTableWord, hf] at h
  match w, h with
  | 1, h => exact ⟨rfl, (Option.some.inj h).symm⟩

/-- A word of the format `PHASE` is the code of a phase, and stands without a request (R62). -/
theorem decodeTableWord_phase {nbits w : Nat} {i : Instr} (hf : formatOfWidth nbits = .phase)
    (h : decodeTableWord nbits w = some i) : i = operationOf (Phase.ofCode (BitVec.ofNat 3 w)) false := by
  simp only [decodeTableWord, hf, decodeWord, tableOpWord] at h
  by_cases hw : w < 8
  case pos =>
    simp only [if_pos hw, decode_eq_operationOf] at h
    exact (Option.some.inj h).symm
  case neg => simp [hw] at h

namespace Machine

variable (s : State) (nbits w : Nat)

@[simp] theorem withFetchWord_stepNo : (s.withFetchWord nbits w).stepNo = s.stepNo := by
  unfold State.withFetchWord
  split <;> rfl

/-- The placed sample event stands for the first listed one. -/
@[simp] theorem withFetchWord_events_tail : (s.withFetchWord nbits w).events.tail = s.events.tail := by
  unfold State.withFetchWord
  split <;> rfl

@[simp] theorem event_withFetchWord_rst : (event (s.withFetchWord nbits w)).rst = false := by
  unfold State.withFetchWord
  split <;> rfl

variable {s nbits w}

/-- A placed `CMD` word is a choice in `IDLE` by its one bit. -/
theorem fetch_withFetchWord_cmd (hf : formatOfWidth nbits = .cmd) :
    fetch (s.withFetchWord nbits w) = operationOf .idle (w.testBit 0) := by
  rw [fetch_eq, State.withFetchWord, hf]
  rfl

/-- A placed `PHASE` word is the register; the request that stays beside it is none in `IDLE`, and is ignored elsewhere (R82). -/
theorem fetch_withFetchWord_phase (hf : formatOfWidth nbits = .phase) :
    fetch (s.withFetchWord nbits w) = operationOf (Phase.ofCode (BitVec.ofNat 3 w)) false := by
  have hplaced : fetch (s.withFetchWord nbits w) =
      operationOf (Phase.ofCode (BitVec.ofNat 3 w)) ((placedEvent s).start && decide (w % 8 ≠ 0)) := by
    rw [fetch_eq, State.withFetchWord, hf]
    rfl
  rw [hplaced]
  by_cases hidle : Phase.ofCode (BitVec.ofNat 3 w) = .idle
  case pos =>
    have hzero : w % 8 = 0 := by
      simpa using congrArg BitVec.toNat ((Phase.ofCode_eq_idle_iff _).mp hidle)
    simp [hzero]
  case neg => exact operationOf_start_ignored hidle _ _

/-- What the table's decoder reads from a word is the operation of the step after the word is placed. -/
theorem fetch_withFetchWord {i : Instr} (h : decodeTableWord nbits w = some i) :
    fetch (s.withFetchWord nbits w) = i := by
  cases hf : formatOfWidth nbits with
  | cmd =>
    obtain ⟨rfl, rfl⟩ := decodeTableWord_cmd hf h
    exact fetch_withFetchWord_cmd hf
  | phase =>
    obtain rfl := decodeTableWord_phase hf h
    exact fetch_withFetchWord_phase hf

/-- Settles O8: the step fetches the word's operation, by `fetch_withFetchWord`, and consumes the placed sample event. -/
theorem placedWordRunsNext : Obligations.PlacedWordRunsNext := by
  intro s nbits w i hi
  obtain ⟨he, hn⟩ := operate_events i (s.withFetchWord nbits w)
  rw [step, react, event_withFetchWord_rst, fetch_withFetchWord hi, exec_eq_operate]
  simp [retire, consume, he, hn]

end Machine

end Sys2Proof
end
